-- ==== Sys2Proof/Word.lean ====
section
/-! DEFINITION. The register width XLEN (00_scope.md R6) and the types of words, bytes and register numbers. -/

namespace Sys2Proof

/-- The two register widths a core can be built with (R6: `XLEN ∈ {32, 64}`). -/
inductive XLen where
  | rv32
  | rv64
deriving DecidableEq, Repr

/-- XLEN in bits (R6). -/
def XLen.bits : XLen → Nat
  | .rv32 => 32
  | .rv64 => 64

/-- How many low bits of a shift amount count: "the low 5/6 bits" (40_execution_cycle.md R168). -/
def XLen.shamtBits : XLen → Nat
  | .rv32 => 5
  | .rv64 => 6

/-- A MachineWord (R18): an XLEN-bit value. -/
abbrev Word (k : XLen) := BitVec k.bits

/-- The smallest addressable unit of memory (20_memory.md R71). -/
abbrev Byte := BitVec 8

/-- The number of a general register, 0 to 31 (10_state.md R31). -/
abbrev Reg := Fin 32

end Sys2Proof
end

