-- ==== Sys2Proof/Machine/Flags.lean ====
section
/-! DEFINITION. The hardware has no flags and no condition codes (10_state.md R41). What takes their place are comparisons
of two register values: the branch comparator (40_execution_cycle.md R167) and the 0/1 results of SLT and SLTU (R168). -/

namespace Sys2Proof.Machine

variable {k : XLen}

/-- `a <s b` (00_scope.md R13). -/
def ltS (a b : Word k) : Bool := decide (a.toInt < b.toInt)

/-- `a <u b` (00_scope.md R13). -/
def ltU (a b : Word k) : Bool := decide (a.toNat < b.toNat)

/-- The conditions of the branch comparator (R167). -/
inductive Cond where
  | eq
  | ne
  | lt
  | ge
  | ltu
  | geu
deriving DecidableEq, Repr

/-- The branch comparator (R167, R169). -/
def Cond.holds (c : Cond) (a b : Word k) : Bool :=
  match c with
  | .eq => a == b
  | .ne => a != b
  | .lt => ltS a b
  | .ge => !ltS a b
  | .ltu => ltU a b
  | .geu => !ltU a b

/-- A comparison's result as a register value, "`1` if ..., else `0`" (R168). -/
def boolWord (k : XLen) (b : Bool) : Word k := if b then 1#_ else 0#_

end Sys2Proof.Machine
end

