-- ==== Sys2Proof/Config.lean ====
section
/-! DEFINITION. The parameters the spec leaves open (00_scope.md R6 to R8; 93_implementation_defined.md I1 to I9). A machine
is reset FROM such parameters; every claim about reset is made for all of them. -/

namespace Sys2Proof

/-- A loadable segment: its bytes stand in the image from its physical address upward (70_reset_and_hazards.md R372). -/
structure Segment where
  addr  : Nat
  bytes : List Byte
deriving DecidableEq, Repr

/-- The parameters of the core (R6, R7) and the loader's image (R372). `initX` holds INIT_X[1] to INIT_X[31], so register
`i` starts with entry `i - 1`. -/
structure Params where
  xlen    : XLen
  memBase : Nat
  memSize : Nat
  resetPc : Word xlen
  initX   : Vector (Word xlen) 31
  image   : List Segment
deriving DecidableEq, Repr

/-- The segment lies inside `[base, base + size)`. -/
def Segment.inside (base size : Nat) (g : Segment) : Bool :=
  decide (base ≤ g.addr) && decide (g.addr + g.bytes.length ≤ base + size)

/-- The two segments share no address. -/
def Segment.apart (g h : Segment) : Bool :=
  decide (g.addr + g.bytes.length ≤ h.addr) || decide (h.addr + h.bytes.length ≤ g.addr)

/-- The parameters the core may be started with: the window fits the address space (R7, I17), every segment lies inside it
("a loader-level error, not an engine concern", R372, I6), and no two segments claim one address.
DESIGN CHOICE (log 7) for the last clause: the spec says nothing of overlapping segments. -/
def Params.valid (p : Params) : Bool :=
  decide (1 ≤ p.memSize) && decide (p.memBase + p.memSize ≤ 2 ^ p.xlen.bits)
    && p.image.all (Segment.inside p.memBase p.memSize)
    && decide (p.image.Pairwise (fun g h => g.apart h = true))

/-- The parameters of `State.reset`. DESIGN CHOICE (logs 2 and 3): the spec gives no value; the window and the entry point
are the example values of 92_eei_decisions.md D26, the width is 64 so that every row of the opcode table can run, registers
start at zero and nothing is loaded. -/
def Params.named : Params where
  xlen    := .rv64
  memBase := 0x80000000
  memSize := 0x10000
  resetPc := 0x80000000#64
  initX   := Vector.replicate 31 0#64
  image   := []

/-- HALT_ON_PC_ZERO and STEP_LIMIT: the two parameters of the run loop, which the core's own step never reads (R8). -/
structure RunPolicy where
  haltOnPcZero : Bool
  stepLimit    : Option Nat
deriving DecidableEq, Repr

end Sys2Proof
end

