-- ==== Sys2Proof/Syntax.lean ====
section
/-! DEFINITION. The instructions: one constructor for each of the 51 mnemonics of spec/opcode_table.json (30_encoding.md
R127). Operands are the encoded fields: register numbers, and immediates as the bits the format assembles (R118 to R122)
before their extension to XLEN. -/

namespace Sys2Proof

/-- An instruction. `imm` is imm_I or imm_S (12 bits), imm_B (13 bits, bit 0 not encoded), the U field `inst[31:12]`
(20 bits) or imm_J (21 bits, bit 0 not encoded). `shamt` of SLLI, SRLI, SRAI is the 6-bit amount, of which XLEN 32 encodes
only the low 5 (R123). -/
inductive Instr where
  /-- LB, load byte, sign-extended (R190). -/
  | lb (rd rs1 : Reg) (imm : BitVec 12)
  /-- LH, load halfword, sign-extended (R191). -/
  | lh (rd rs1 : Reg) (imm : BitVec 12)
  /-- LW, load word, sign-extended to XLEN (R192). -/
  | lw (rd rs1 : Reg) (imm : BitVec 12)
  /-- LD, load doubleword (XLEN 64) (R193). -/
  | ld (rd rs1 : Reg) (imm : BitVec 12)
  /-- LBU, load byte, zero-extended (R194). -/
  | lbu (rd rs1 : Reg) (imm : BitVec 12)
  /-- LHU, load halfword, zero-extended (R195). -/
  | lhu (rd rs1 : Reg) (imm : BitVec 12)
  /-- SB, store byte (R210). -/
  | sb (rs1 rs2 : Reg) (imm : BitVec 12)
  /-- SH, store halfword (R211). -/
  | sh (rs1 rs2 : Reg) (imm : BitVec 12)
  /-- SW, store word (R212). -/
  | sw (rs1 rs2 : Reg) (imm : BitVec 12)
  /-- SD, store doubleword (XLEN 64) (R213). -/
  | sd (rs1 rs2 : Reg) (imm : BitVec 12)
  /-- ADDI, add immediate (R230). -/
  | addi (rd rs1 : Reg) (imm : BitVec 12)
  /-- SLTI, set if less than immediate, signed (R231). -/
  | slti (rd rs1 : Reg) (imm : BitVec 12)
  /-- SLTIU, set if less than immediate, unsigned (R232). -/
  | sltiu (rd rs1 : Reg) (imm : BitVec 12)
  /-- XORI, exclusive or with immediate (R233). -/
  | xori (rd rs1 : Reg) (imm : BitVec 12)
  /-- ORI, or with immediate (R234). -/
  | ori (rd rs1 : Reg) (imm : BitVec 12)
  /-- ANDI, and with immediate (R235). -/
  | andi (rd rs1 : Reg) (imm : BitVec 12)
  /-- SLLI, shift left logical by immediate (R236). -/
  | slli (rd rs1 : Reg) (shamt : BitVec 6)
  /-- SRLI, shift right logical by immediate (R237). -/
  | srli (rd rs1 : Reg) (shamt : BitVec 6)
  /-- SRAI, shift right arithmetic by immediate (R238). -/
  | srai (rd rs1 : Reg) (shamt : BitVec 6)
  /-- ADDIW, add immediate word (XLEN 64) (R240). -/
  | addiw (rd rs1 : Reg) (imm : BitVec 12)
  /-- SLLIW, shift left logical word by immediate (XLEN 64) (R241). -/
  | slliw (rd rs1 : Reg) (shamt : BitVec 5)
  /-- SRLIW, shift right logical word by immediate (XLEN 64) (R242). -/
  | srliw (rd rs1 : Reg) (shamt : BitVec 5)
  /-- SRAIW, shift right arithmetic word by immediate (XLEN 64) (R243). -/
  | sraiw (rd rs1 : Reg) (shamt : BitVec 5)
  /-- ADD, add (R260). -/
  | add (rd rs1 rs2 : Reg)
  /-- SUB, subtract (R261). -/
  | sub (rd rs1 rs2 : Reg)
  /-- SLL, shift left logical (R262). -/
  | sll (rd rs1 rs2 : Reg)
  /-- SLT, set if less than, signed (R263). -/
  | slt (rd rs1 rs2 : Reg)
  /-- SLTU, set if less than, unsigned (R264). -/
  | sltu (rd rs1 rs2 : Reg)
  /-- XOR, exclusive or (R265). -/
  | xor (rd rs1 rs2 : Reg)
  /-- SRL, shift right logical (R266). -/
  | srl (rd rs1 rs2 : Reg)
  /-- SRA, shift right arithmetic (R267). -/
  | sra (rd rs1 rs2 : Reg)
  /-- OR, or (R268). -/
  | or (rd rs1 rs2 : Reg)
  /-- AND, and (R269). -/
  | and (rd rs1 rs2 : Reg)
  /-- ADDW, add word (XLEN 64) (R270). -/
  | addw (rd rs1 rs2 : Reg)
  /-- SUBW, subtract word (XLEN 64) (R271). -/
  | subw (rd rs1 rs2 : Reg)
  /-- SLLW, shift left logical word (XLEN 64) (R272). -/
  | sllw (rd rs1 rs2 : Reg)
  /-- SRLW, shift right logical word (XLEN 64) (R273). -/
  | srlw (rd rs1 rs2 : Reg)
  /-- SRAW, shift right arithmetic word (XLEN 64) (R274). -/
  | sraw (rd rs1 rs2 : Reg)
  /-- LUI, load upper immediate (R290). -/
  | lui (rd : Reg) (imm : BitVec 20)
  /-- AUIPC, add upper immediate to the pc (R291). -/
  | auipc (rd : Reg) (imm : BitVec 20)
  /-- BEQ, branch if equal (R300). -/
  | beq (rs1 rs2 : Reg) (imm : BitVec 13)
  /-- BNE, branch if not equal (R301). -/
  | bne (rs1 rs2 : Reg) (imm : BitVec 13)
  /-- BLT, branch if less than, signed (R302). -/
  | blt (rs1 rs2 : Reg) (imm : BitVec 13)
  /-- BGE, branch if greater or equal, signed (R303). -/
  | bge (rs1 rs2 : Reg) (imm : BitVec 13)
  /-- BLTU, branch if less than, unsigned (R304). -/
  | bltu (rs1 rs2 : Reg) (imm : BitVec 13)
  /-- BGEU, branch if greater or equal, unsigned (R305). -/
  | bgeu (rs1 rs2 : Reg) (imm : BitVec 13)
  /-- JALR, jump and link register (R306). -/
  | jalr (rd rs1 : Reg) (imm : BitVec 12)
  /-- JAL, jump and link (R307). -/
  | jal (rd : Reg) (imm : BitVec 21)
  /-- ECALL, environment call (R320). -/
  | ecall
  /-- EBREAK, breakpoint (R321). -/
  | ebreak
  /-- FENCE, memory-ordering fence; no field is examined (R322). -/
  | fence (fm pred succ : BitVec 4) (rs1 rd : Reg)
deriving DecidableEq, Repr

/-- The instruction's mnemonic, as spec/opcode_table.json spells it. -/
def Instr.mnemonic : Instr → String
  | .lb _ _ _ => "LB"
  | .lh _ _ _ => "LH"
  | .lw _ _ _ => "LW"
  | .ld _ _ _ => "LD"
  | .lbu _ _ _ => "LBU"
  | .lhu _ _ _ => "LHU"
  | .sb _ _ _ => "SB"
  | .sh _ _ _ => "SH"
  | .sw _ _ _ => "SW"
  | .sd _ _ _ => "SD"
  | .addi _ _ _ => "ADDI"
  | .slti _ _ _ => "SLTI"
  | .sltiu _ _ _ => "SLTIU"
  | .xori _ _ _ => "XORI"
  | .ori _ _ _ => "ORI"
  | .andi _ _ _ => "ANDI"
  | .slli _ _ _ => "SLLI"
  | .srli _ _ _ => "SRLI"
  | .srai _ _ _ => "SRAI"
  | .addiw _ _ _ => "ADDIW"
  | .slliw _ _ _ => "SLLIW"
  | .srliw _ _ _ => "SRLIW"
  | .sraiw _ _ _ => "SRAIW"
  | .add _ _ _ => "ADD"
  | .sub _ _ _ => "SUB"
  | .sll _ _ _ => "SLL"
  | .slt _ _ _ => "SLT"
  | .sltu _ _ _ => "SLTU"
  | .xor _ _ _ => "XOR"
  | .srl _ _ _ => "SRL"
  | .sra _ _ _ => "SRA"
  | .or _ _ _ => "OR"
  | .and _ _ _ => "AND"
  | .addw _ _ _ => "ADDW"
  | .subw _ _ _ => "SUBW"
  | .sllw _ _ _ => "SLLW"
  | .srlw _ _ _ => "SRLW"
  | .sraw _ _ _ => "SRAW"
  | .lui _ _ => "LUI"
  | .auipc _ _ => "AUIPC"
  | .beq _ _ _ => "BEQ"
  | .bne _ _ _ => "BNE"
  | .blt _ _ _ => "BLT"
  | .bge _ _ _ => "BGE"
  | .bltu _ _ _ => "BLTU"
  | .bgeu _ _ _ => "BGEU"
  | .jalr _ _ _ => "JALR"
  | .jal _ _ => "JAL"
  | .ecall => "ECALL"
  | .ebreak => "EBREAK"
  | .fence _ _ _ _ _ => "FENCE"

end Sys2Proof
end

