-- ==== Sys2Proof/WellFormed.lean ====
section
/-! DEFINITION. Which instructions have an encoding at a given XLEN (30_encoding.md R116, R117, R123, R127). -/

namespace Sys2Proof

/-- The instruction has a word at width `k`: an instruction marked "64" in R127 needs XLEN 64; the 6-bit shift amount of
SLLI, SRLI and SRAI is below 32 at XLEN 32, where its bit 5 has no place in the word (R123, R133); bit 0 of a branch or JAL
offset "is not encoded and is 0" (R116, R117). -/
def Instr.wellFormed (k : XLen) : Instr → Bool
  | .lb _ _ _ => true
  | .lh _ _ _ => true
  | .lw _ _ _ => true
  | .ld _ _ _ => k == .rv64
  | .lbu _ _ _ => true
  | .lhu _ _ _ => true
  | .sb _ _ _ => true
  | .sh _ _ _ => true
  | .sw _ _ _ => true
  | .sd _ _ _ => k == .rv64
  | .addi _ _ _ => true
  | .slti _ _ _ => true
  | .sltiu _ _ _ => true
  | .xori _ _ _ => true
  | .ori _ _ _ => true
  | .andi _ _ _ => true
  | .slli _ _ shamt => k == .rv64 || !shamt[5]
  | .srli _ _ shamt => k == .rv64 || !shamt[5]
  | .srai _ _ shamt => k == .rv64 || !shamt[5]
  | .addiw _ _ _ => k == .rv64
  | .slliw _ _ _ => k == .rv64
  | .srliw _ _ _ => k == .rv64
  | .sraiw _ _ _ => k == .rv64
  | .add _ _ _ => true
  | .sub _ _ _ => true
  | .sll _ _ _ => true
  | .slt _ _ _ => true
  | .sltu _ _ _ => true
  | .xor _ _ _ => true
  | .srl _ _ _ => true
  | .sra _ _ _ => true
  | .or _ _ _ => true
  | .and _ _ _ => true
  | .addw _ _ _ => k == .rv64
  | .subw _ _ _ => k == .rv64
  | .sllw _ _ _ => k == .rv64
  | .srlw _ _ _ => k == .rv64
  | .sraw _ _ _ => k == .rv64
  | .lui _ _ => true
  | .auipc _ _ => true
  | .beq _ _ imm => !imm[0]
  | .bne _ _ imm => !imm[0]
  | .blt _ _ imm => !imm[0]
  | .bge _ _ imm => !imm[0]
  | .bltu _ _ imm => !imm[0]
  | .bgeu _ _ imm => !imm[0]
  | .jalr _ _ _ => true
  | .jal _ imm => !imm[0]
  | .ecall => true
  | .ebreak => true
  | .fence _ _ _ _ _ => true

end Sys2Proof
end

