-- ==== Sys2Proof/Decode.lean ====
section
/-! DEFINITION. The decoder DEC (30_encoding.md): fields, immediates, the class of every word; then the encoder, and the
opcode table of R127 as data. -/

namespace Sys2Proof

/-! ### Fields (R111) -/

def opcodeOf (w : BitVec 32) : BitVec 7 := w.extractLsb' 0 7
def funct3Of (w : BitVec 32) : BitVec 3 := w.extractLsb' 12 3
def funct7Of (w : BitVec 32) : BitVec 7 := w.extractLsb' 25 7
def rdOf (w : BitVec 32) : Reg := (w.extractLsb' 7 5).toFin
def rs1Of (w : BitVec 32) : Reg := (w.extractLsb' 15 5).toFin
def rs2Of (w : BitVec 32) : Reg := (w.extractLsb' 20 5).toFin

/-! ### Immediates: the bits each format assembles, before extension (R118 to R122) -/

/-- `inst[31:20]` (R118). -/
def bitsI (w : BitVec 32) : BitVec 12 := w.extractLsb' 20 12
/-- `inst[31:25] ++ inst[11:7]` (R119). -/
def bitsS (w : BitVec 32) : BitVec 12 := w.extractLsb' 25 7 ++ w.extractLsb' 7 5
/-- `inst[31] ++ inst[7] ++ inst[30:25] ++ inst[11:8] ++ 0` (R120). -/
def bitsB (w : BitVec 32) : BitVec 13 :=
  w.extractLsb' 31 1 ++ w.extractLsb' 7 1 ++ w.extractLsb' 25 6 ++ w.extractLsb' 8 4 ++ 0#1
/-- `inst[31:12]` (R121). -/
def bitsU (w : BitVec 32) : BitVec 20 := w.extractLsb' 12 20
/-- `inst[31] ++ inst[19:12] ++ inst[20] ++ inst[30:21] ++ 0` (R122). -/
def bitsJ (w : BitVec 32) : BitVec 21 :=
  w.extractLsb' 31 1 ++ w.extractLsb' 12 8 ++ w.extractLsb' 20 1 ++ w.extractLsb' 21 10 ++ 0#1

/-- `sext_N` of 00_scope.md R12: bits N-1 and above all equal bit N-1. -/
def sext (k : XLen) {n : Nat} (v : BitVec n) : Word k := v.signExtend k.bits
/-- `zext_N` of 00_scope.md R12: bits N and above are zero. -/
def zext (k : XLen) {n : Nat} (v : BitVec n) : Word k := v.setWidth k.bits

/-- imm_I from its bits (R118). -/
def immI (k : XLen) (imm : BitVec 12) : Word k := sext k imm
/-- imm_S from its bits (R119). -/
def immS (k : XLen) (imm : BitVec 12) : Word k := sext k imm
/-- imm_B from its bits (R120). -/
def immB (k : XLen) (imm : BitVec 13) : Word k := sext k imm
/-- imm_U from its field: positioned in bits 31 to 12, then sign-extended from bit 31 (R121; 90_conflicts.md C1, C5). -/
def immU (k : XLen) (imm : BitVec 20) : Word k := sext k (imm ++ 0#12)
/-- imm_J from its bits (R122). -/
def immJ (k : XLen) (imm : BitVec 21) : Word k := sext k imm

/-! ### The class of a word -/

/-- Why a word is of class `Illegal` (R139 to R141). The spec has one fault for all of them, IllegalInstruction. -/
inductive Illegal where
  /-- its `inst[6:0]` is no row of R125 -/
  | opcode
  /-- its opcode has no instruction with this funct3 (R130, R131, R134, R136, R138, R140, R141) -/
  | funct3
  /-- no instruction with this funct7 or shift selector (R133 to R136) -/
  | funct7
  /-- a row marked 64 in R127, at XLEN 32 -/
  | rv64Only
  /-- a SYSTEM word that is neither ECALL nor EBREAK (R141) -/
  | system
  /-- fewer than four bytes were given; fetch never does this (R110) -/
  | truncated
deriving DecidableEq, Repr

/-- The class of a word: one instruction, or `Illegal` (R112). -/
inductive Class where
  | legal (i : Instr)
  | illegal (why : Illegal)
deriving DecidableEq, Repr

def Class.toOption : Class → Option Instr
  | .legal i => some i
  | .illegal _ => none

/-- A row of R127 marked 64: illegal at XLEN 32. -/
def at64 (k : XLen) (i : Instr) : Class :=
  match k with
  | .rv64 => .legal i
  | .rv32 => .illegal .rv64Only

/-- LOAD, opcode 0x03 (R130, R140). -/
def decodeLoad (k : XLen) (w : BitVec 32) : Class :=
  match funct3Of w with
  | 0b000#3 => .legal (.lb (rdOf w) (rs1Of w) (bitsI w))
  | 0b001#3 => .legal (.lh (rdOf w) (rs1Of w) (bitsI w))
  | 0b010#3 => .legal (.lw (rdOf w) (rs1Of w) (bitsI w))
  | 0b011#3 => at64 k (.ld (rdOf w) (rs1Of w) (bitsI w))
  | 0b100#3 => .legal (.lbu (rdOf w) (rs1Of w) (bitsI w))
  | 0b101#3 => .legal (.lhu (rdOf w) (rs1Of w) (bitsI w))
  | _ => .illegal .funct3

/-- STORE, opcode 0x23 (R131). -/
def decodeStore (k : XLen) (w : BitVec 32) : Class :=
  match funct3Of w with
  | 0b000#3 => .legal (.sb (rs1Of w) (rs2Of w) (bitsS w))
  | 0b001#3 => .legal (.sh (rs1Of w) (rs2Of w) (bitsS w))
  | 0b010#3 => .legal (.sw (rs1Of w) (rs2Of w) (bitsS w))
  | 0b011#3 => at64 k (.sd (rs1Of w) (rs2Of w) (bitsS w))
  | _ => .illegal .funct3

/-- The selector and the amount of an OP-IMM shift (R123, R133). At XLEN 32 the selector is funct7 and the amount
`inst[24:20]`; at XLEN 64 the selector is `inst[31:26]`, written here as a funct7 whose low bit is zero, and the amount
`inst[25:20]` (90_conflicts.md C2). -/
def shiftFields (k : XLen) (w : BitVec 32) : BitVec 7 × BitVec 6 :=
  match k with
  | .rv32 => (funct7Of w, 0#1 ++ w.extractLsb' 20 5)
  | .rv64 => (w.extractLsb' 26 6 ++ 0#1, w.extractLsb' 20 6)

/-- OP-IMM, opcode 0x13 (R132, R133). -/
def decodeOpImm (k : XLen) (w : BitVec 32) : Class :=
  match funct3Of w with
  | 0b000#3 => .legal (.addi (rdOf w) (rs1Of w) (bitsI w))
  | 0b001#3 =>
    match (shiftFields k w).1 with
    | 0b0000000#7 => .legal (.slli (rdOf w) (rs1Of w) (shiftFields k w).2)
    | _ => .illegal .funct7
  | 0b010#3 => .legal (.slti (rdOf w) (rs1Of w) (bitsI w))
  | 0b011#3 => .legal (.sltiu (rdOf w) (rs1Of w) (bitsI w))
  | 0b100#3 => .legal (.xori (rdOf w) (rs1Of w) (bitsI w))
  | 0b101#3 =>
    match (shiftFields k w).1 with
    | 0b0000000#7 => .legal (.srli (rdOf w) (rs1Of w) (shiftFields k w).2)
    | 0b0100000#7 => .legal (.srai (rdOf w) (rs1Of w) (shiftFields k w).2)
    | _ => .illegal .funct7
  | 0b110#3 => .legal (.ori (rdOf w) (rs1Of w) (bitsI w))
  | 0b111#3 => .legal (.andi (rdOf w) (rs1Of w) (bitsI w))

/-- OP-IMM-32, opcode 0x1B at XLEN 64 (R134). -/
def decodeOpImm32 (w : BitVec 32) : Class :=
  match funct3Of w with
  | 0b000#3 => .legal (.addiw (rdOf w) (rs1Of w) (bitsI w))
  | 0b001#3 =>
    match funct7Of w with
    | 0b0000000#7 => .legal (.slliw (rdOf w) (rs1Of w) (w.extractLsb' 20 5))
    | _ => .illegal .funct7
  | 0b101#3 =>
    match funct7Of w with
    | 0b0000000#7 => .legal (.srliw (rdOf w) (rs1Of w) (w.extractLsb' 20 5))
    | 0b0100000#7 => .legal (.sraiw (rdOf w) (rs1Of w) (w.extractLsb' 20 5))
    | _ => .illegal .funct7
  | _ => .illegal .funct3

/-- OP, opcode 0x33 (R135): the funct3 values whose funct7 is 0000000. -/
def decodeOpBase (w : BitVec 32) : Class :=
  match funct3Of w with
  | 0b000#3 => .legal (.add (rdOf w) (rs1Of w) (rs2Of w))
  | 0b001#3 => .legal (.sll (rdOf w) (rs1Of w) (rs2Of w))
  | 0b010#3 => .legal (.slt (rdOf w) (rs1Of w) (rs2Of w))
  | 0b011#3 => .legal (.sltu (rdOf w) (rs1Of w) (rs2Of w))
  | 0b100#3 => .legal (.xor (rdOf w) (rs1Of w) (rs2Of w))
  | 0b101#3 => .legal (.srl (rdOf w) (rs1Of w) (rs2Of w))
  | 0b110#3 => .legal (.or (rdOf w) (rs1Of w) (rs2Of w))
  | 0b111#3 => .legal (.and (rdOf w) (rs1Of w) (rs2Of w))

/-- OP, opcode 0x33 (R135): the funct3 values whose funct7 is 0100000. -/
def decodeOpAlt (w : BitVec 32) : Class :=
  match funct3Of w with
  | 0b000#3 => .legal (.sub (rdOf w) (rs1Of w) (rs2Of w))
  | 0b101#3 => .legal (.sra (rdOf w) (rs1Of w) (rs2Of w))
  | _ => .illegal .funct7

/-- OP, opcode 0x33 (R135). -/
def decodeOp (w : BitVec 32) : Class :=
  match funct7Of w with
  | 0b0000000#7 => decodeOpBase w
  | 0b0100000#7 => decodeOpAlt w
  | _ => .illegal .funct7

/-- OP-32, opcode 0x3B at XLEN 64 (R136). -/
def decodeOp32 (w : BitVec 32) : Class :=
  match funct3Of w with
  | 0b000#3 =>
    match funct7Of w with
    | 0b0000000#7 => .legal (.addw (rdOf w) (rs1Of w) (rs2Of w))
    | 0b0100000#7 => .legal (.subw (rdOf w) (rs1Of w) (rs2Of w))
    | _ => .illegal .funct7
  | 0b001#3 =>
    match funct7Of w with
    | 0b0000000#7 => .legal (.sllw (rdOf w) (rs1Of w) (rs2Of w))
    | _ => .illegal .funct7
  | 0b101#3 =>
    match funct7Of w with
    | 0b0000000#7 => .legal (.srlw (rdOf w) (rs1Of w) (rs2Of w))
    | 0b0100000#7 => .legal (.sraw (rdOf w) (rs1Of w) (rs2Of w))
    | _ => .illegal .funct7
  | _ => .illegal .funct3

/-- BRANCH, opcode 0x63 (R138). -/
def decodeBranch (w : BitVec 32) : Class :=
  match funct3Of w with
  | 0b000#3 => .legal (.beq (rs1Of w) (rs2Of w) (bitsB w))
  | 0b001#3 => .legal (.bne (rs1Of w) (rs2Of w) (bitsB w))
  | 0b100#3 => .legal (.blt (rs1Of w) (rs2Of w) (bitsB w))
  | 0b101#3 => .legal (.bge (rs1Of w) (rs2Of w) (bitsB w))
  | 0b110#3 => .legal (.bltu (rs1Of w) (rs2Of w) (bitsB w))
  | 0b111#3 => .legal (.bgeu (rs1Of w) (rs2Of w) (bitsB w))
  | _ => .illegal .funct3

/-- JALR, opcode 0x67 (R138). -/
def decodeJalr (w : BitVec 32) : Class :=
  match funct3Of w with
  | 0b000#3 => .legal (.jalr (rdOf w) (rs1Of w) (bitsI w))
  | _ => .illegal .funct3

/-- SYSTEM, opcode 0x73: two exact words (R141). -/
def decodeSystem (w : BitVec 32) : Class :=
  match w with
  | 0x00000073#32 => .legal .ecall
  | 0x00100073#32 => .legal .ebreak
  | _ => .illegal .system

/-- MISC-MEM, opcode 0x0F: FENCE whatever its other bits hold (R141, R322). -/
def decodeMiscMem (w : BitVec 32) : Class :=
  match funct3Of w with
  | 0b000#3 =>
    .legal (.fence (w.extractLsb' 28 4) (w.extractLsb' 24 4) (w.extractLsb' 20 4) (rs1Of w) (rdOf w))
  | _ => .illegal .funct3

/-- The class of the word `w` at width `k` (R112, R125, R137, R139): total, and a function of these two only (R143). -/
def decode (k : XLen) (w : BitVec 32) : Class :=
  match opcodeOf w with
  | 0b0000011#7 => decodeLoad k w
  | 0b0001111#7 => decodeMiscMem w
  | 0b0010011#7 => decodeOpImm k w
  | 0b0010111#7 => .legal (.auipc (rdOf w) (bitsU w))
  | 0b0011011#7 =>
    match k with
    | .rv32 => .illegal .rv64Only
    | .rv64 => decodeOpImm32 w
  | 0b0100011#7 => decodeStore k w
  | 0b0110011#7 => decodeOp w
  | 0b0110111#7 => .legal (.lui (rdOf w) (bitsU w))
  | 0b0111011#7 =>
    match k with
    | .rv32 => .illegal .rv64Only
    | .rv64 => decodeOp32 w
  | 0b1100011#7 => decodeBranch w
  | 0b1100111#7 => decodeJalr w
  | 0b1101111#7 => .legal (.jal (rdOf w) (bitsJ w))
  | 0b1110011#7 => decodeSystem w
  | _ => .illegal .opcode

/-- The decoder's whole output for a word (R10, R111, R112): every field and every immediate is produced for every word,
whatever its class. -/
structure Decoded (k : XLen) where
  opcode : BitVec 7
  rd     : Reg
  funct3 : BitVec 3
  rs1    : Reg
  rs2    : Reg
  funct7 : BitVec 7
  immI   : Word k
  immS   : Word k
  immB   : Word k
  immU   : Word k
  immJ   : Word k
  cls    : Class
deriving DecidableEq, Repr

/-- DEC (R10, R112). -/
def decoded (k : XLen) (w : BitVec 32) : Decoded k where
  opcode := opcodeOf w
  rd     := rdOf w
  funct3 := funct3Of w
  rs1    := rs1Of w
  rs2    := rs2Of w
  funct7 := funct7Of w
  immI   := immI k (bitsI w)
  immS   := immS k (bitsS w)
  immB   := immB k (bitsB w)
  immU   := immU k (bitsU w)
  immJ   := immJ k (bitsJ w)
  cls    := decode k w

/-- The word of four bytes in memory order, the least significant first (20_memory.md R76, R80). -/
def wordOfBytes (b0 b1 b2 b3 : Byte) : BitVec 32 := b3 ++ b2 ++ b1 ++ b0

/-- The class of the instruction at the head of a byte sequence (R110: always four bytes). -/
def decodeBytes (k : XLen) : List Byte → Class
  | b0 :: b1 :: b2 :: b3 :: _ => decode k (wordOfBytes b0 b1 b2 b3)
  | _ => .illegal .truncated

/-- The four bytes of a word as memory holds them. -/
def bytesOfWord (w : BitVec 32) : List Byte :=
  [w.extractLsb' 0 8, w.extractLsb' 8 8, w.extractLsb' 16 8, w.extractLsb' 24 8]

/-- The word that an opcode-table row's `nbits` bits `w` stand for: the bits above are zero. -/
def tableWord (nbits w : Nat) : BitVec 32 := BitVec.ofNat 32 (w % 2 ^ nbits)

/-- The decoder's reading of an opcode-table word, at the XLEN of `State.reset` (log 2). -/
def decodeTableWord (nbits w : Nat) : Option Instr :=
  (decodeBytes Params.named.xlen (bytesOfWord (tableWord nbits w))).toOption

/-! ### The encoder (R113 to R117) -/

def regBits (r : Reg) : BitVec 5 := BitVec.ofFin r

/-- R-type (R113). -/
def encR (funct7 : BitVec 7) (rs2 rs1 : Reg) (funct3 : BitVec 3) (rd : Reg) (opcode : BitVec 7) : BitVec 32 :=
  funct7 ++ regBits rs2 ++ regBits rs1 ++ funct3 ++ regBits rd ++ opcode
/-- I-type (R114). -/
def encI (imm : BitVec 12) (rs1 : Reg) (funct3 : BitVec 3) (rd : Reg) (opcode : BitVec 7) : BitVec 32 :=
  imm ++ regBits rs1 ++ funct3 ++ regBits rd ++ opcode
/-- S-type (R115). -/
def encS (imm : BitVec 12) (rs2 rs1 : Reg) (funct3 : BitVec 3) (opcode : BitVec 7) : BitVec 32 :=
  imm.extractLsb' 5 7 ++ regBits rs2 ++ regBits rs1 ++ funct3 ++ imm.extractLsb' 0 5 ++ opcode
/-- B-type (R116). -/
def encB (imm : BitVec 13) (rs2 rs1 : Reg) (funct3 : BitVec 3) (opcode : BitVec 7) : BitVec 32 :=
  imm.extractLsb' 12 1 ++ imm.extractLsb' 5 6 ++ regBits rs2 ++ regBits rs1 ++ funct3 ++ imm.extractLsb' 1 4
    ++ imm.extractLsb' 11 1 ++ opcode
/-- U-type (R117). -/
def encU (imm : BitVec 20) (rd : Reg) (opcode : BitVec 7) : BitVec 32 := imm ++ regBits rd ++ opcode
/-- J-type (R117). -/
def encJ (imm : BitVec 21) (rd : Reg) (opcode : BitVec 7) : BitVec 32 :=
  imm.extractLsb' 20 1 ++ imm.extractLsb' 1 10 ++ imm.extractLsb' 11 1 ++ imm.extractLsb' 12 8 ++ regBits rd ++ opcode

/-- The shift immediates of OP-IMM (R123, R133): six selector bits `inst[31:26]`, then the 6-bit amount. At XLEN 32 the
amount's bit 5 is zero and the two together read as funct7 and a 5-bit amount. -/
def encShift (selector : BitVec 6) (shamt : BitVec 6) (rs1 : Reg) (funct3 : BitVec 3) (rd : Reg) : BitVec 32 :=
  encI (selector ++ shamt) rs1 funct3 rd 0x13#7
/-- The shift immediates of OP-IMM-32 (R123, R134): funct7, then the 5-bit amount. -/
def encShiftW (funct7 : BitVec 7) (shamt : BitVec 5) (rs1 : Reg) (funct3 : BitVec 3) (rd : Reg) : BitVec 32 :=
  encI (funct7 ++ shamt) rs1 funct3 rd 0x1B#7

/-- The word of a well-formed instruction (R127). -/
def encode : Instr → BitVec 32
  | .lb rd rs1 imm => encI imm rs1 0b000#3 rd 0x03#7
  | .lh rd rs1 imm => encI imm rs1 0b001#3 rd 0x03#7
  | .lw rd rs1 imm => encI imm rs1 0b010#3 rd 0x03#7
  | .ld rd rs1 imm => encI imm rs1 0b011#3 rd 0x03#7
  | .lbu rd rs1 imm => encI imm rs1 0b100#3 rd 0x03#7
  | .lhu rd rs1 imm => encI imm rs1 0b101#3 rd 0x03#7
  | .sb rs1 rs2 imm => encS imm rs2 rs1 0b000#3 0x23#7
  | .sh rs1 rs2 imm => encS imm rs2 rs1 0b001#3 0x23#7
  | .sw rs1 rs2 imm => encS imm rs2 rs1 0b010#3 0x23#7
  | .sd rs1 rs2 imm => encS imm rs2 rs1 0b011#3 0x23#7
  | .addi rd rs1 imm => encI imm rs1 0b000#3 rd 0x13#7
  | .slti rd rs1 imm => encI imm rs1 0b010#3 rd 0x13#7
  | .sltiu rd rs1 imm => encI imm rs1 0b011#3 rd 0x13#7
  | .xori rd rs1 imm => encI imm rs1 0b100#3 rd 0x13#7
  | .ori rd rs1 imm => encI imm rs1 0b110#3 rd 0x13#7
  | .andi rd rs1 imm => encI imm rs1 0b111#3 rd 0x13#7
  | .slli rd rs1 shamt => encShift 0b000000#6 shamt rs1 0b001#3 rd
  | .srli rd rs1 shamt => encShift 0b000000#6 shamt rs1 0b101#3 rd
  | .srai rd rs1 shamt => encShift 0b010000#6 shamt rs1 0b101#3 rd
  | .addiw rd rs1 imm => encI imm rs1 0b000#3 rd 0x1B#7
  | .slliw rd rs1 shamt => encShiftW 0b0000000#7 shamt rs1 0b001#3 rd
  | .srliw rd rs1 shamt => encShiftW 0b0000000#7 shamt rs1 0b101#3 rd
  | .sraiw rd rs1 shamt => encShiftW 0b0100000#7 shamt rs1 0b101#3 rd
  | .add rd rs1 rs2 => encR 0b0000000#7 rs2 rs1 0b000#3 rd 0x33#7
  | .sub rd rs1 rs2 => encR 0b0100000#7 rs2 rs1 0b000#3 rd 0x33#7
  | .sll rd rs1 rs2 => encR 0b0000000#7 rs2 rs1 0b001#3 rd 0x33#7
  | .slt rd rs1 rs2 => encR 0b0000000#7 rs2 rs1 0b010#3 rd 0x33#7
  | .sltu rd rs1 rs2 => encR 0b0000000#7 rs2 rs1 0b011#3 rd 0x33#7
  | .xor rd rs1 rs2 => encR 0b0000000#7 rs2 rs1 0b100#3 rd 0x33#7
  | .srl rd rs1 rs2 => encR 0b0000000#7 rs2 rs1 0b101#3 rd 0x33#7
  | .sra rd rs1 rs2 => encR 0b0100000#7 rs2 rs1 0b101#3 rd 0x33#7
  | .or rd rs1 rs2 => encR 0b0000000#7 rs2 rs1 0b110#3 rd 0x33#7
  | .and rd rs1 rs2 => encR 0b0000000#7 rs2 rs1 0b111#3 rd 0x33#7
  | .addw rd rs1 rs2 => encR 0b0000000#7 rs2 rs1 0b000#3 rd 0x3B#7
  | .subw rd rs1 rs2 => encR 0b0100000#7 rs2 rs1 0b000#3 rd 0x3B#7
  | .sllw rd rs1 rs2 => encR 0b0000000#7 rs2 rs1 0b001#3 rd 0x3B#7
  | .srlw rd rs1 rs2 => encR 0b0000000#7 rs2 rs1 0b101#3 rd 0x3B#7
  | .sraw rd rs1 rs2 => encR 0b0100000#7 rs2 rs1 0b101#3 rd 0x3B#7
  | .lui rd imm => encU imm rd 0x37#7
  | .auipc rd imm => encU imm rd 0x17#7
  | .beq rs1 rs2 imm => encB imm rs2 rs1 0b000#3 0x63#7
  | .bne rs1 rs2 imm => encB imm rs2 rs1 0b001#3 0x63#7
  | .blt rs1 rs2 imm => encB imm rs2 rs1 0b100#3 0x63#7
  | .bge rs1 rs2 imm => encB imm rs2 rs1 0b101#3 0x63#7
  | .bltu rs1 rs2 imm => encB imm rs2 rs1 0b110#3 0x63#7
  | .bgeu rs1 rs2 imm => encB imm rs2 rs1 0b111#3 0x63#7
  | .jalr rd rs1 imm => encI imm rs1 0b000#3 rd 0x67#7
  | .jal rd imm => encJ imm rd 0x6F#7
  | .ecall => 0x00000073#32
  | .ebreak => 0x00100073#32
  | .fence fm pred succ rs1 rd => encI (fm ++ pred ++ succ) rs1 0b000#3 rd 0x0F#7

/-- The bytes of a well-formed instruction as memory holds them (20_memory.md R76). -/
def encodeBytes (i : Instr) : List Byte := bytesOfWord (encode i)

/-! ### The opcode table of R127 as data -/

/-- A row of the opcode table: a word stands in it when its bits under `mask` are `pattern`. -/
structure OpcodeRow where
  mnemonic : String
  pattern  : BitVec 32
  mask     : BitVec 32
deriving DecidableEq, Repr

def OpcodeRow.has (row : OpcodeRow) (w : BitVec 32) : Bool := w &&& row.mask == row.pattern

def loadRows : List OpcodeRow :=
  [⟨"LB", 0x00000003, 0x0000707f⟩, ⟨"LH", 0x00001003, 0x0000707f⟩, ⟨"LW", 0x00002003, 0x0000707f⟩,
   ⟨"LBU", 0x00004003, 0x0000707f⟩, ⟨"LHU", 0x00005003, 0x0000707f⟩]
def storeRows : List OpcodeRow :=
  [⟨"SB", 0x00000023, 0x0000707f⟩, ⟨"SH", 0x00001023, 0x0000707f⟩, ⟨"SW", 0x00002023, 0x0000707f⟩]
def opImmRows : List OpcodeRow :=
  [⟨"ADDI", 0x00000013, 0x0000707f⟩, ⟨"SLTI", 0x00002013, 0x0000707f⟩, ⟨"SLTIU", 0x00003013, 0x0000707f⟩,
   ⟨"XORI", 0x00004013, 0x0000707f⟩, ⟨"ORI", 0x00006013, 0x0000707f⟩, ⟨"ANDI", 0x00007013, 0x0000707f⟩]
def shiftRows32 : List OpcodeRow :=
  [⟨"SLLI", 0x00001013, 0xfe00707f⟩, ⟨"SRLI", 0x00005013, 0xfe00707f⟩, ⟨"SRAI", 0x40005013, 0xfe00707f⟩]
def shiftRows64 : List OpcodeRow :=
  [⟨"SLLI", 0x00001013, 0xfc00707f⟩, ⟨"SRLI", 0x00005013, 0xfc00707f⟩, ⟨"SRAI", 0x40005013, 0xfc00707f⟩]
def opRows : List OpcodeRow :=
  [⟨"ADD", 0x00000033, 0xfe00707f⟩, ⟨"SUB", 0x40000033, 0xfe00707f⟩, ⟨"SLL", 0x00001033, 0xfe00707f⟩,
   ⟨"SLT", 0x00002033, 0xfe00707f⟩, ⟨"SLTU", 0x00003033, 0xfe00707f⟩, ⟨"XOR", 0x00004033, 0xfe00707f⟩,
   ⟨"SRL", 0x00005033, 0xfe00707f⟩, ⟨"SRA", 0x40005033, 0xfe00707f⟩, ⟨"OR", 0x00006033, 0xfe00707f⟩,
   ⟨"AND", 0x00007033, 0xfe00707f⟩]
def upperRows : List OpcodeRow := [⟨"LUI", 0x00000037, 0x0000007f⟩, ⟨"AUIPC", 0x00000017, 0x0000007f⟩]
def controlRows : List OpcodeRow :=
  [⟨"BEQ", 0x00000063, 0x0000707f⟩, ⟨"BNE", 0x00001063, 0x0000707f⟩, ⟨"BLT", 0x00004063, 0x0000707f⟩,
   ⟨"BGE", 0x00005063, 0x0000707f⟩, ⟨"BLTU", 0x00006063, 0x0000707f⟩, ⟨"BGEU", 0x00007063, 0x0000707f⟩,
   ⟨"JALR", 0x00000067, 0x0000707f⟩, ⟨"JAL", 0x0000006f, 0x0000007f⟩]
def systemRows : List OpcodeRow :=
  [⟨"ECALL", 0x00000073, 0xffffffff⟩, ⟨"EBREAK", 0x00100073, 0xffffffff⟩, ⟨"FENCE", 0x0000000f, 0x0000707f⟩]
/-- The rows marked 64 only. -/
def rows64 : List OpcodeRow :=
  [⟨"LD", 0x00003003, 0x0000707f⟩, ⟨"SD", 0x00003023, 0x0000707f⟩, ⟨"ADDIW", 0x0000001b, 0x0000707f⟩,
   ⟨"SLLIW", 0x0000101b, 0xfe00707f⟩, ⟨"SRLIW", 0x0000501b, 0xfe00707f⟩, ⟨"SRAIW", 0x4000501b, 0xfe00707f⟩,
   ⟨"ADDW", 0x0000003b, 0xfe00707f⟩, ⟨"SUBW", 0x4000003b, 0xfe00707f⟩, ⟨"SLLW", 0x0000103b, 0xfe00707f⟩,
   ⟨"SRLW", 0x0000503b, 0xfe00707f⟩, ⟨"SRAW", 0x4000503b, 0xfe00707f⟩]

/-- The opcode table at width `k`: 40 rows at XLEN 32, 51 at XLEN 64 (R2, R127; spec/opcode_table.json). -/
def opcodeTable (k : XLen) : List OpcodeRow :=
  loadRows ++ storeRows ++ opImmRows
    ++ (match k with | .rv32 => shiftRows32 | .rv64 => shiftRows64)
    ++ opRows ++ upperRows ++ controlRows ++ systemRows
    ++ (match k with | .rv32 => [] | .rv64 => rows64)

end Sys2Proof
end

