-- ==== Sys2Proof/Machine/Memory.lean ====
section
/-! DEFINITION. The memory image and the bus MEM (20_memory.md R70 to R76, R10): one window of bytes, held as the cells that
differ from zero in strictly rising order of address. -/

namespace Sys2Proof.Machine

/-- What an address no cell lists reads as: "Bytes outside the loaded program region are zero-initialized" (R372). -/
def unlisted : Byte := 0#8

/-- The byte a list of cells holds at address `x`. -/
def lookupCell : List Host.Cell → Nat → Byte
  | [], _ => unlisted
  | c :: rest, x => if x = c.1 then c.2 else lookupCell rest x

/-- A cell put in front of `rest`, unless its byte is what an unlisted address reads as. -/
def consCell (x : Nat) (v : Byte) (rest : List Host.Cell) : List Host.Cell :=
  if v = unlisted then rest else (x, v) :: rest

/-- The cells with the byte at `x` replaced by `v`; rising order is kept. -/
def insertCell : List Host.Cell → Nat → Byte → List Host.Cell
  | [], x, v => consCell x v []
  | c :: rest, x, v =>
    if x < c.1 then consCell x v (c :: rest)
    else if x = c.1 then consCell x v rest
    else c :: insertCell rest x v

/-- The cells with the bytes `bs` stored from address `a` upward. -/
def insertBytes : List Host.Cell → Nat → List Byte → List Host.Cell
  | cs, _, [] => cs
  | cs, a, b :: bs => insertBytes (insertCell cs a b) (a + 1) bs

/-- The memory image: "a byte sequence of fixed length `SIZE`, representing the address range `[BASE, BASE+SIZE)`" (R71). -/
structure Memory where
  base  : Nat
  size  : Nat
  cells : List Host.Cell
deriving DecidableEq, Repr

/-- The canonical form: addresses strictly rising, inside the window, and no cell equal to what an unlisted address reads
as. -/
def Memory.wf (m : Memory) : Bool :=
  decide (m.cells.Pairwise (fun c d => c.1 < d.1))
    && m.cells.all (fun c => decide (m.base ≤ c.1) && decide (c.1 < m.base + m.size) && c.2 != unlisted)

/-- `InBounds(addr, n)` over unbounded integers (R72). -/
def Memory.inBounds (m : Memory) (a n : Nat) : Bool :=
  decide (m.base ≤ a) && decide (a + n ≤ m.base + m.size)

/-- The byte at address `a` (R71: `mem[a - MEM_BASE]`). -/
def Memory.byte (m : Memory) (a : Nat) : Byte := lookupCell m.cells a

/-- The bytes at `a .. a+n-1`, the lowest address first. -/
def Memory.bytes (m : Memory) (a : Nat) : Nat → List Byte
  | 0 => []
  | n + 1 => m.byte a :: m.bytes (a + 1) n

/-- Bytes read as one number, the least significant first: the model's one reading of the byte order (R76). -/
def leValue : List Byte → Nat
  | [] => 0
  | b :: bs => b.toNat + 256 * leValue bs

/-- The low `n` bytes of a number, the least significant first: the model's one writing of the byte order (R76). -/
def leBytes : Nat → Nat → List Byte
  | 0, _ => []
  | n + 1, v => BitVec.ofNat 8 v :: leBytes n (v / 256)

/-- `MemRead(addr, n)` (R74); `none` is OutOfBounds. -/
def Memory.read (m : Memory) (a n : Nat) : Option (BitVec (8 * n)) :=
  if m.inBounds a n then some (BitVec.ofNat (8 * n) (leValue (m.bytes a n))) else none

/-- The image with bytes stored from `a` upward, with no bounds check. -/
def Memory.put (m : Memory) (a : Nat) (bs : List Byte) : Memory := { m with cells := insertBytes m.cells a bs }

/-- `MemWrite(addr, n, v)` (R75): all the bytes or, `none`, OutOfBounds and no byte. -/
def Memory.write (m : Memory) (a n : Nat) (v : BitVec (8 * n)) : Option Memory :=
  if m.inBounds a n then some (m.put a (leBytes n v.toNat)) else none

/-- The window with nothing loaded. -/
def Memory.zeroed (base size : Nat) : Memory := { base := base, size := size, cells := [] }

/-- One loadable segment's bytes placed in the image (R372). A segment that is not inside the window is left out: the core
is never started with one (`Params.valid`, 93_implementation_defined.md I6). -/
def Memory.load (m : Memory) (a : Nat) (bs : List Byte) : Memory :=
  if m.inBounds a bs.length then m.put a bs else m

end Sys2Proof.Machine
end

