-- ==== Sys2Proof/Machine/State.lean ====
section
/-! DEFINITION. The architectural state, exactly the tuple of 10_state.md R30, with the parameters XLEN, MEM_BASE and
MEM_SIZE beside it as plain data (log 1); the faults; reset (70_reset_and_hazards.md R370 to R372). -/

namespace Sys2Proof.Machine

/-- The three faults and no other (60_exceptions.md R340). The step that raises one answers a next state with
`run = halted f` (R344, log 4); `step` answers `Outcome.fault f` from such a state, since no step is defined there (R346).
All are safe: the machine stops where the spec says it stops. -/
inductive Fault where
  /-- the fetched word is of class Illegal (R341); raised by `step`, and by an RV64-only meaning at XLEN 32 (log 5). Safe. -/
  | illegalInstruction
  /-- a fetch, load or store is not wholly inside the window (R342); raised by the fetch, loads and stores. Safe. -/
  | outOfBounds
  /-- the pc is not a multiple of 4 at fetch (R343); raised by the fetch alone. Safe. -/
  | misaligned
deriving DecidableEq, Repr

/-- Refusals. Every instruction of the opcode table has its meaning, so no step of this model refuses. -/
inductive Refusal where
  /-- an instruction with no meaning yet, by its mnemonic; no arm of `exec` answers this. Safe. -/
  | notModelled (mnemonic : String)
deriving DecidableEq, Repr

/-- "two logical states, Running and Halted", the second with the fault that stopped the core (R44). -/
inductive RunState where
  | running
  | halted (f : Fault)
deriving DecidableEq, Repr

/-- The state of R30 at width `k`. `x` has the slot of x0 too (R31); reads and writes go through `Hart.reg` and
`Hart.setReg`, which hard-wire it (R32, R33). `mem` holds its own window (R71). -/
structure Hart (k : XLen) where
  x   : Vector (Word k) 32
  pc  : Word k
  mem : Memory
  run : RunState
deriving DecidableEq, Repr

/-- The machine: a width (R6) and the state at that width. -/
structure State where
  xlen : XLen
  hart : Hart xlen
deriving DecidableEq, Repr

/-- The image the loader hands over: zero but for the segments' bytes (R372). Of two segments that claim one address the
later stands. DESIGN CHOICE (log 7): `Params.valid` excludes such images. -/
def loadedImage (p : Params) : Memory :=
  p.image.foldl (fun m g => m.load g.addr g.bytes) (Memory.zeroed p.memBase p.memSize)

/-- The hart after reset with parameters `p` (R370, R49). -/
def resetHart (p : Params) : Hart p.xlen where
  x   := Vector.ofFn (fun i : Fin 32 => if i.val = 0 then 0#_ else p.initX[i.val - 1])
  pc  := p.resetPc
  mem := loadedImage p
  run := .running

/-- The state after reset with parameters `p` (R370). -/
def State.resetOf (p : Params) : State := ⟨p.xlen, resetHart p⟩

/-- The machine right after reset with the named parameters. DESIGN CHOICE (logs 2 and 3) for their values. -/
def State.reset : State := State.resetOf Params.named

end Sys2Proof.Machine
end

