-- ==== Sys2Proof/Machine/Ops.lean ====
section
/-! DEFINITION. The shared operations: the register file RF, the load-store unit LSU, the fetch, taking a fault, and
committing an instruction's effects (10_state.md R32 to R39; 20_memory.md R78 to R80; 40_execution_cycle.md R165;
60_exceptions.md R344). The spec has no return from a fault (R349), so there is none here. -/

namespace Sys2Proof.Machine

variable {k : XLen}

/-! ### The register file and the program counter -/

/-- A read port of RF: `x[i]`, and x0 "always" zero (R32). -/
def Hart.reg (m : Hart k) (r : Reg) : Word k := if r = 0 then 0#_ else m.x[r]

/-- `RFWrite` (R33): a write to x0 is discarded. -/
def Hart.setReg (m : Hart k) (r : Reg) (v : Word k) : Hart k := if r = 0 then m else { m with x := m.x.set r v }

/-- `pc <- target` (R14, R38). -/
def Hart.setPc (m : Hart k) (a : Word k) : Hart k := { m with pc := a }

/-- The image replaced by a store's result. -/
def Hart.setMem (m : Hart k) (mem : Memory) : Hart k := { m with mem := mem }

/-- The next sequential address, `A + 4` modulo 2^XLEN (R39, R162). -/
def Hart.nextPc (m : Hart k) : Word k := m.pc + 4#_

/-- The run state set to Halted(f), and nothing else (R344). -/
def Hart.halt (m : Hart k) (f : Fault) : Hart k := { m with run := .halted f }

/-- The host's "read-only snapshot view of all 32 registers plus PC" (R44). -/
def Hart.snapshot (m : Hart k) : Vector (Word k) 32 × Word k := (Vector.ofFn m.reg, m.pc)

/-- What the host reports of a halted core: the fault kind with the registers and the pc (R345). -/
def State.report (s : State) : Option (Fault × Vector (Word s.xlen) 32 × Word s.xlen) :=
  match s.hart.run with
  | .running => none
  | .halted f => some (f, s.hart.snapshot)

/-! ### Ends of a step -/

/-- `raise F` (R16, R344): TAKING A FAULT. Registers, memory and pc are as before the step, and the core is Halted(f).
Nothing is saved, no mode changes, control goes nowhere (R348). -/
def raise (f : Fault) (s : State) : Host.Outcome State Fault Refusal := .next ⟨s.xlen, s.hart.halt f⟩

/-- The commit of R165: the instruction's effects on the hart, together. -/
def retire (s : State) (m : Hart s.xlen) : Host.Outcome State Fault Refusal := .next ⟨s.xlen, m⟩

/-- The instruction writes `rd` and goes on at `A + 4` (R162, R165). -/
def writeBack (rd : Reg) (s : State) (v : Word s.xlen) : Host.Outcome State Fault Refusal :=
  retire s ((s.hart.setReg rd v).setPc s.hart.nextPc)

/-- The instruction links `A + 4` in `rd` and goes on at `target` (R163, R164, R306, R307). -/
def linkAndJump (rd : Reg) (s : State) (target : Word s.xlen) : Host.Outcome State Fault Refusal :=
  retire s ((s.hart.setReg rd s.hart.nextPc).setPc target)

/-- The instruction only advances the pc (R320 to R322). -/
def advance (s : State) : Host.Outcome State Fault Refusal := retire s (s.hart.setPc s.hart.nextPc)

/-- An instruction marked 64 in R127: at XLEN 32 it "is `Illegal` and raises `IllegalInstruction`" (R193). The decoder gives
none there; DEDUCED for a meaning run on its own (log 5). -/
def onlyAt64 (s : State) (o : Host.Outcome State Fault Refusal) : Host.Outcome State Fault Refusal :=
  match s.xlen with
  | .rv64 => o
  | .rv32 => raise .illegalInstruction s

/-! ### The load-store unit and the fetch -/

/-- `LSULoad(addr, n, signed)` (R78); `none` is OutOfBounds. -/
def lsuLoad (mem : Memory) (addr : Word k) (n : Nat) (signed : Bool) : Option (Word k) :=
  match mem.read addr.toNat n with
  | none => none
  | some v => some (if signed then sext k v else zext k v)

/-- `LSUStore(addr, n, data)` (R79): the low 8n bits of the data; `none` is OutOfBounds. -/
def lsuStore (mem : Memory) (addr : Word k) (n : Nat) (data : Word k) : Option Memory :=
  mem.write addr.toNat n (data.setWidth (8 * n))

/-- What a fetch gives: a word, or the fault it raises. -/
inductive Fetched where
  | word (w : BitVec 32)
  | bad (f : Fault)
deriving DecidableEq, Repr

/-- `Fetch(pc)` (R80, R161): the alignment check first, then the bounds check, then the little-endian word. -/
def Hart.fetch (m : Hart k) : Fetched :=
  if m.pc.toNat % 4 ≠ 0 then .bad .misaligned
  else
    match m.mem.read m.pc.toNat 4 with
    | none => .bad .outOfBounds
    | some w => .word w

/-- The hart with the four bytes of an instruction placed at its pc, and running: what a loader does before the step. -/
def Hart.placeWord (m : Hart k) (w : BitVec 32) : Hart k :=
  { m with mem := m.mem.load m.pc.toNat (bytesOfWord w), run := .running }

end Sys2Proof.Machine
end

