-- ==== Sys2Proof/Machine/Operands.lean ====
section
/-! DEFINITION. Operand forms: shift amounts (30_encoding.md R123), effective addresses (40_execution_cycle.md R166) and
PC-relative targets (R163, R164). Immediates are extended by `immI`, `immS`, `immB`, `immU`, `immJ` of Decode.lean. -/

namespace Sys2Proof.Machine

variable {k : XLen}

/-- `low32(v)` (00_scope.md R13). -/
def low32 (v : Word k) : BitVec 32 := v.setWidth 32

/-- The amount of a register or immediate shift: the low 5 bits at XLEN 32, the low 6 at XLEN 64 (R123, R168). -/
def shiftAmount (b : Word k) : Nat := (b.extractLsb' 0 k.shamtBits).toNat

/-- The amount of a W shift: the low 5 bits (R123, R170). -/
def shiftAmountW (b : Word k) : Nat := (b.extractLsb' 0 5).toNat

/-- The amount field of SLLI, SRLI, SRAI has a place in the word at width `k` (R133: at XLEN 32 `inst[25] = 1` is Illegal). -/
def shamtFits (k : XLen) (shamt : BitVec 6) : Bool := k == .rv64 || !shamt[5]

/-- `EA_load = x[rs1] + imm_I`, modulo 2^XLEN (R166). -/
def Hart.loadAddr (m : Hart k) (rs1 : Reg) (imm : BitVec 12) : Word k := m.reg rs1 + immI k imm

/-- `EA_store = x[rs1] + imm_S`, modulo 2^XLEN (R166). -/
def Hart.storeAddr (m : Hart k) (rs1 : Reg) (imm : BitVec 12) : Word k := m.reg rs1 + immS k imm

/-- `T_jalr = (x[rs1] + imm_I) & ~1` (R166). -/
def Hart.jalrTarget (m : Hart k) (rs1 : Reg) (imm : BitVec 12) : Word k := (m.reg rs1 + immI k imm) &&& ~~~1#_

/-- `A + imm_B` (R163). -/
def Hart.branchTarget (m : Hart k) (imm : BitVec 13) : Word k := m.pc + immB k imm

/-- `A + imm_J` (R163). -/
def Hart.jalTarget (m : Hart k) (imm : BitVec 21) : Word k := m.pc + immJ k imm

end Sys2Proof.Machine
end

