-- ==== Sys2Proof/Machine/Control.lean ====
section
/-! DEFINITION. Control transfer (46_control_transfer.md R300 to R307). No instruction checks its target's alignment; the next fetch does
(40_execution_cycle.md R163). -/

namespace Sys2Proof.Machine

/-- `if cond(x[rs1], x[rs2]): pc <- A + imm_B`, else `A + 4` (R163, R169). -/
def branchIf (c : Cond) (rs1 rs2 : Reg) (imm : BitVec 13) (s : State) : Host.Outcome State Fault Refusal :=
  if c.holds (s.hart.reg rs1) (s.hart.reg rs2) then retire s (s.hart.setPc (s.hart.branchTarget imm)) else advance s

/-- BEQ: branch if equal (R300). -/
def execBeq (rs1 rs2 : Reg) (imm : BitVec 13) (s : State) : Host.Outcome State Fault Refusal :=
  branchIf .eq rs1 rs2 imm s

/-- BNE: branch if not equal (R301). -/
def execBne (rs1 rs2 : Reg) (imm : BitVec 13) (s : State) : Host.Outcome State Fault Refusal :=
  branchIf .ne rs1 rs2 imm s

/-- BLT: branch if less than, signed (R302). -/
def execBlt (rs1 rs2 : Reg) (imm : BitVec 13) (s : State) : Host.Outcome State Fault Refusal :=
  branchIf .lt rs1 rs2 imm s

/-- BGE: branch if greater or equal, signed (R303). -/
def execBge (rs1 rs2 : Reg) (imm : BitVec 13) (s : State) : Host.Outcome State Fault Refusal :=
  branchIf .ge rs1 rs2 imm s

/-- BLTU: branch if less than, unsigned (R304). -/
def execBltu (rs1 rs2 : Reg) (imm : BitVec 13) (s : State) : Host.Outcome State Fault Refusal :=
  branchIf .ltu rs1 rs2 imm s

/-- BGEU: branch if greater or equal, unsigned (R305). -/
def execBgeu (rs1 rs2 : Reg) (imm : BitVec 13) (s : State) : Host.Outcome State Fault Refusal :=
  branchIf .geu rs1 rs2 imm s

/-- JALR: `t <- (x[rs1] + imm_I) & ~1` from the old `x[rs1]`, `x[rd] <- A + 4`, `pc <- t` (R306). -/
def execJalr (rd rs1 : Reg) (imm : BitVec 12) (s : State) : Host.Outcome State Fault Refusal :=
  linkAndJump rd s (s.hart.jalrTarget rs1 imm)

/-- JAL: `x[rd] <- A + 4`, `pc <- A + imm_J` (R307). -/
def execJal (rd : Reg) (imm : BitVec 21) (s : State) : Host.Outcome State Fault Refusal :=
  linkAndJump rd s (s.hart.jalTarget imm)

end Sys2Proof.Machine
end

