-- ==== Sys2Proof/Machine/Loads.lean ====
section
/-! DEFINITION. Loads (41_loads.md R190 to R195). There is no LWU (R196). -/

namespace Sys2Proof.Machine

/-- What every load does: `EA <- x[rs1] + imm_I`, then `LSULoad(EA, n, signed)` into `rd`, or OutOfBounds with `rd` and the
pc as they were (41_loads.md). No alignment rule (20_memory.md R77). -/
def loadInto (n : Nat) (signed : Bool) (rd rs1 : Reg) (imm : BitVec 12) (s : State) : Host.Outcome State Fault Refusal :=
  match lsuLoad s.hart.mem (s.hart.loadAddr rs1 imm) n signed with
  | none => raise .outOfBounds s
  | some v => writeBack rd s v

/-- LB: load byte, sign-extended (R190). -/
def execLb (rd rs1 : Reg) (imm : BitVec 12) (s : State) : Host.Outcome State Fault Refusal :=
  loadInto 1 true rd rs1 imm s

/-- LH: load halfword, sign-extended (R191). -/
def execLh (rd rs1 : Reg) (imm : BitVec 12) (s : State) : Host.Outcome State Fault Refusal :=
  loadInto 2 true rd rs1 imm s

/-- LW: load word, sign-extended to XLEN (R192). -/
def execLw (rd rs1 : Reg) (imm : BitVec 12) (s : State) : Host.Outcome State Fault Refusal :=
  loadInto 4 true rd rs1 imm s

/-- LD: load doubleword (XLEN 64) (R193). -/
def execLd (rd rs1 : Reg) (imm : BitVec 12) (s : State) : Host.Outcome State Fault Refusal :=
  onlyAt64 s (loadInto 8 true rd rs1 imm s)

/-- LBU: load byte, zero-extended (R194). -/
def execLbu (rd rs1 : Reg) (imm : BitVec 12) (s : State) : Host.Outcome State Fault Refusal :=
  loadInto 1 false rd rs1 imm s

/-- LHU: load halfword, zero-extended (R195). -/
def execLhu (rd rs1 : Reg) (imm : BitVec 12) (s : State) : Host.Outcome State Fault Refusal :=
  loadInto 2 false rd rs1 imm s

end Sys2Proof.Machine
end

