-- ==== Sys2Proof/Machine/Alu.lean ====
section
/-! DEFINITION. The ALU (40_execution_cycle.md R168) and its word operations (R170). -/

namespace Sys2Proof.Machine

variable {k : XLen}

/-- The `op` input of the ALU (R168). -/
inductive AluOp where
  | add
  | sub
  | sll
  | srl
  | sra
  | slt
  | sltu
  | xor
  | or
  | and
deriving DecidableEq, Repr

/-- `y = ALU(op, a, b)` (R168): no fault, no flag. -/
def alu (op : AluOp) (a b : Word k) : Word k :=
  match op with
  | .add => a + b
  | .sub => a - b
  | .sll => a <<< shiftAmount b
  | .srl => a >>> shiftAmount b
  | .sra => a.sshiftRight (shiftAmount b)
  | .slt => boolWord k (ltS a b)
  | .sltu => boolWord k (ltU a b)
  | .xor => a ^^^ b
  | .or => a ||| b
  | .and => a &&& b

/-- The word operations of the ALU (R170). -/
inductive AluOpW where
  | addw
  | subw
  | sllw
  | srlw
  | sraw
deriving DecidableEq, Repr

/-- The word operations: on the low 32 bits, the 32-bit result sign-extended (R170). -/
def aluW (op : AluOpW) (a b : Word k) : Word k :=
  match op with
  | .addw => sext k (low32 a + low32 b)
  | .subw => sext k (low32 a - low32 b)
  | .sllw => sext k (low32 a <<< shiftAmountW b)
  | .srlw => sext k (low32 a >>> shiftAmountW b)
  | .sraw => sext k ((low32 a).sshiftRight (shiftAmountW b))

end Sys2Proof.Machine
end

