-- ==== Sys2Proof/Machine/Op.lean ====
section
/-! DEFINITION. Register-register arithmetic: OP and OP-32 (44_op.md R260 to R274). -/

namespace Sys2Proof.Machine

/-- `x[rd] <- ALU(op, x[rs1], x[rs2])`. -/
def aluReg (op : AluOp) (rd rs1 rs2 : Reg) (s : State) : Host.Outcome State Fault Refusal :=
  writeBack rd s (alu op (s.hart.reg rs1) (s.hart.reg rs2))

/-- `x[rd] <- ALUW(op, x[rs1], x[rs2])`, at XLEN 64. -/
def aluRegW (op : AluOpW) (rd rs1 rs2 : Reg) (s : State) : Host.Outcome State Fault Refusal :=
  onlyAt64 s (writeBack rd s (aluW op (s.hart.reg rs1) (s.hart.reg rs2)))

/-- ADD: add (R260). -/
def execAdd (rd rs1 rs2 : Reg) (s : State) : Host.Outcome State Fault Refusal :=
  aluReg .add rd rs1 rs2 s

/-- SUB: subtract (R261). -/
def execSub (rd rs1 rs2 : Reg) (s : State) : Host.Outcome State Fault Refusal :=
  aluReg .sub rd rs1 rs2 s

/-- SLL: shift left logical (R262). -/
def execSll (rd rs1 rs2 : Reg) (s : State) : Host.Outcome State Fault Refusal :=
  aluReg .sll rd rs1 rs2 s

/-- SLT: set if less than, signed (R263). -/
def execSlt (rd rs1 rs2 : Reg) (s : State) : Host.Outcome State Fault Refusal :=
  aluReg .slt rd rs1 rs2 s

/-- SLTU: set if less than, unsigned (R264). -/
def execSltu (rd rs1 rs2 : Reg) (s : State) : Host.Outcome State Fault Refusal :=
  aluReg .sltu rd rs1 rs2 s

/-- XOR: exclusive or (R265). -/
def execXor (rd rs1 rs2 : Reg) (s : State) : Host.Outcome State Fault Refusal :=
  aluReg .xor rd rs1 rs2 s

/-- SRL: shift right logical (R266). -/
def execSrl (rd rs1 rs2 : Reg) (s : State) : Host.Outcome State Fault Refusal :=
  aluReg .srl rd rs1 rs2 s

/-- SRA: shift right arithmetic (R267). -/
def execSra (rd rs1 rs2 : Reg) (s : State) : Host.Outcome State Fault Refusal :=
  aluReg .sra rd rs1 rs2 s

/-- OR: or (R268). -/
def execOr (rd rs1 rs2 : Reg) (s : State) : Host.Outcome State Fault Refusal :=
  aluReg .or rd rs1 rs2 s

/-- AND: and (R269). -/
def execAnd (rd rs1 rs2 : Reg) (s : State) : Host.Outcome State Fault Refusal :=
  aluReg .and rd rs1 rs2 s

/-- ADDW: add word (XLEN 64) (R270). -/
def execAddw (rd rs1 rs2 : Reg) (s : State) : Host.Outcome State Fault Refusal :=
  aluRegW .addw rd rs1 rs2 s

/-- SUBW: subtract word (XLEN 64) (R271). -/
def execSubw (rd rs1 rs2 : Reg) (s : State) : Host.Outcome State Fault Refusal :=
  aluRegW .subw rd rs1 rs2 s

/-- SLLW: shift left logical word (XLEN 64) (R272). -/
def execSllw (rd rs1 rs2 : Reg) (s : State) : Host.Outcome State Fault Refusal :=
  aluRegW .sllw rd rs1 rs2 s

/-- SRLW: shift right logical word (XLEN 64) (R273). -/
def execSrlw (rd rs1 rs2 : Reg) (s : State) : Host.Outcome State Fault Refusal :=
  aluRegW .srlw rd rs1 rs2 s

/-- SRAW: shift right arithmetic word (XLEN 64) (R274). -/
def execSraw (rd rs1 rs2 : Reg) (s : State) : Host.Outcome State Fault Refusal :=
  aluRegW .sraw rd rs1 rs2 s

end Sys2Proof.Machine
end

