-- ==== Sys2Proof/Machine/OpImm.lean ====
section
/-! DEFINITION. Register-immediate arithmetic: OP-IMM and OP-IMM-32 (43_op_imm.md R230 to R243). -/

namespace Sys2Proof.Machine

/-- `x[rd] <- ALU(op, x[rs1], imm_I)`. -/
def aluImm (op : AluOp) (rd rs1 : Reg) (imm : BitVec 12) (s : State) : Host.Outcome State Fault Refusal :=
  writeBack rd s (alu op (s.hart.reg rs1) (immI s.xlen imm))

/-- `x[rd] <- ALU(op, x[rs1], shamt)`. At XLEN 32 an amount with bit 5 set has no word but the Illegal ones (R133). -/
def aluShamt (op : AluOp) (rd rs1 : Reg) (shamt : BitVec 6) (s : State) : Host.Outcome State Fault Refusal :=
  if shamtFits s.xlen shamt then writeBack rd s (alu op (s.hart.reg rs1) (zext s.xlen shamt))
  else raise .illegalInstruction s

/-- `x[rd] <- ALUW(op, x[rs1], shamt)`, at XLEN 64. -/
def aluShamtW (op : AluOpW) (rd rs1 : Reg) (shamt : BitVec 5) (s : State) : Host.Outcome State Fault Refusal :=
  onlyAt64 s (writeBack rd s (aluW op (s.hart.reg rs1) (zext s.xlen shamt)))

/-- ADDI: add immediate (R230). -/
def execAddi (rd rs1 : Reg) (imm : BitVec 12) (s : State) : Host.Outcome State Fault Refusal :=
  aluImm .add rd rs1 imm s

/-- SLTI: set if less than immediate, signed (R231). -/
def execSlti (rd rs1 : Reg) (imm : BitVec 12) (s : State) : Host.Outcome State Fault Refusal :=
  aluImm .slt rd rs1 imm s

/-- SLTIU: set if less than immediate, unsigned (R232). -/
def execSltiu (rd rs1 : Reg) (imm : BitVec 12) (s : State) : Host.Outcome State Fault Refusal :=
  aluImm .sltu rd rs1 imm s

/-- XORI: exclusive or with immediate (R233). -/
def execXori (rd rs1 : Reg) (imm : BitVec 12) (s : State) : Host.Outcome State Fault Refusal :=
  aluImm .xor rd rs1 imm s

/-- ORI: or with immediate (R234). -/
def execOri (rd rs1 : Reg) (imm : BitVec 12) (s : State) : Host.Outcome State Fault Refusal :=
  aluImm .or rd rs1 imm s

/-- ANDI: and with immediate (R235). -/
def execAndi (rd rs1 : Reg) (imm : BitVec 12) (s : State) : Host.Outcome State Fault Refusal :=
  aluImm .and rd rs1 imm s

/-- SLLI: shift left logical by immediate (R236). -/
def execSlli (rd rs1 : Reg) (shamt : BitVec 6) (s : State) : Host.Outcome State Fault Refusal :=
  aluShamt .sll rd rs1 shamt s

/-- SRLI: shift right logical by immediate (R237). -/
def execSrli (rd rs1 : Reg) (shamt : BitVec 6) (s : State) : Host.Outcome State Fault Refusal :=
  aluShamt .srl rd rs1 shamt s

/-- SRAI: shift right arithmetic by immediate (R238). -/
def execSrai (rd rs1 : Reg) (shamt : BitVec 6) (s : State) : Host.Outcome State Fault Refusal :=
  aluShamt .sra rd rs1 shamt s

/-- ADDIW: add immediate word (XLEN 64) (R240). -/
def execAddiw (rd rs1 : Reg) (imm : BitVec 12) (s : State) : Host.Outcome State Fault Refusal :=
  onlyAt64 s (writeBack rd s (aluW .addw (s.hart.reg rs1) (immI s.xlen imm)))

/-- SLLIW: shift left logical word by immediate (XLEN 64) (R241). -/
def execSlliw (rd rs1 : Reg) (shamt : BitVec 5) (s : State) : Host.Outcome State Fault Refusal :=
  aluShamtW .sllw rd rs1 shamt s

/-- SRLIW: shift right logical word by immediate (XLEN 64) (R242). -/
def execSrliw (rd rs1 : Reg) (shamt : BitVec 5) (s : State) : Host.Outcome State Fault Refusal :=
  aluShamtW .srlw rd rs1 shamt s

/-- SRAIW: shift right arithmetic word by immediate (XLEN 64) (R243). -/
def execSraiw (rd rs1 : Reg) (shamt : BitVec 5) (s : State) : Host.Outcome State Fault Refusal :=
  aluShamtW .sraw rd rs1 shamt s

end Sys2Proof.Machine
end

