-- ==== Sys2Proof/Machine/Stores.lean ====
section
/-! DEFINITION. Stores (42_stores.md R210 to R213). -/

namespace Sys2Proof.Machine

/-- What every store does: `EA <- x[rs1] + imm_S`, then `LSUStore(EA, n, x[rs2])`, or OutOfBounds with no byte written
(42_stores.md). No alignment rule (20_memory.md R77). -/
def storeFrom (n : Nat) (rs1 rs2 : Reg) (imm : BitVec 12) (s : State) : Host.Outcome State Fault Refusal :=
  match lsuStore s.hart.mem (s.hart.storeAddr rs1 imm) n (s.hart.reg rs2) with
  | none => raise .outOfBounds s
  | some mem => retire s ((s.hart.setMem mem).setPc s.hart.nextPc)

/-- SB: store byte (R210). -/
def execSb (rs1 rs2 : Reg) (imm : BitVec 12) (s : State) : Host.Outcome State Fault Refusal :=
  storeFrom 1 rs1 rs2 imm s

/-- SH: store halfword (R211). -/
def execSh (rs1 rs2 : Reg) (imm : BitVec 12) (s : State) : Host.Outcome State Fault Refusal :=
  storeFrom 2 rs1 rs2 imm s

/-- SW: store word (R212). -/
def execSw (rs1 rs2 : Reg) (imm : BitVec 12) (s : State) : Host.Outcome State Fault Refusal :=
  storeFrom 4 rs1 rs2 imm s

/-- SD: store doubleword (XLEN 64) (R213). -/
def execSd (rs1 rs2 : Reg) (imm : BitVec 12) (s : State) : Host.Outcome State Fault Refusal :=
  onlyAt64 s (storeFrom 8 rs1 rs2 imm s)

end Sys2Proof.Machine
end

