-- ==== Sys2Proof/Machine/System.lean ====
section
/-! DEFINITION. System and memory-ordering instructions (47_system_fence.md R320 to R322): the spec makes all three no-ops. -/

namespace Sys2Proof.Machine

/-- ECALL: "No architectural effect at this scope"; the pc advances (R320). -/
def execEcall (s : State) : Host.Outcome State Fault Refusal :=
  advance s

/-- EBREAK: the same effect as ECALL (R321). -/
def execEbreak (s : State) : Host.Outcome State Fault Refusal :=
  advance s

/-- FENCE: no effect whatever its fields hold; the pc advances (R322). -/
def execFence (_fm _pred _succ : BitVec 4) (_rs1 _rd : Reg) (s : State) : Host.Outcome State Fault Refusal :=
  advance s

end Sys2Proof.Machine
end

