-- ==== Sys2Proof/Machine/Upper.lean ====
section
/-! DEFINITION. Upper-immediate instructions (45_upper_immediate.md R290, R291). -/

namespace Sys2Proof.Machine

/-- LUI: `x[rd] <- imm_U`, already positioned (R290, R121). -/
def execLui (rd : Reg) (imm : BitVec 20) (s : State) : Host.Outcome State Fault Refusal :=
  writeBack rd s (immU s.xlen imm)

/-- AUIPC: `x[rd] <- A + imm_U`, with A this instruction's own address (R291, R164). -/
def execAuipc (rd : Reg) (imm : BitVec 20) (s : State) : Host.Outcome State Fault Refusal :=
  writeBack rd s (s.hart.pc + immU s.xlen imm)

end Sys2Proof.Machine
end

