-- ==== Sys2Proof/Machine/Step.lean ====
section
/-! DEFINITION. The step (40_execution_cycle.md R160): fetch, decode, execute, one instruction at a time; and how an
instruction word is placed where the step fetches. -/

namespace Sys2Proof.Machine

/-- The instruction of a fetched word, or IllegalInstruction (R160, R341). -/
def runWord (w : BitVec 32) (s : State) : Host.Outcome State Fault Refusal :=
  match decode s.xlen w with
  | .illegal _ => raise .illegalInstruction s
  | .legal i => exec i s

/-- One step (R160). From Halted(f) no step is defined (R346, 93_implementation_defined.md I11: stuck), so the answer there
is the fault that stopped the core (log 4). -/
def step (s : State) : Host.Outcome State Fault Refusal :=
  match s.hart.run with
  | .halted f => .fault f
  | .running =>
    match s.hart.fetch with
    | .bad f => raise f s
    | .word w => runWord w s

/-- The state with an opcode-table word stored at the pc and the core running, so that the very next step fetches and runs
it: the loader's part (log 9). Nothing is stored where the pc's four bytes are not inside the window. -/
def State.withFetchWord (s : State) (nbits w : Nat) : State := ⟨s.xlen, s.hart.placeWord (tableWord nbits w)⟩

end Sys2Proof.Machine
end

