-- ==== Sys2Proof/Machine/RunLoop.lean ====
section
/-! DEFINITION. The run loop that drives the core, with its two halt policies as arguments (00_scope.md R8; 60_exceptions.md
R345, R346; 90_conflicts.md C8). The policies stop the driver, not the core. -/

namespace Sys2Proof.Machine

/-- Why the run loop stopped. -/
inductive Stop where
  /-- a step halted the core with this fault (R346) -/
  | faulted (f : Fault)
  /-- HALT_ON_PC_ZERO, and a step made the pc zero (R8) -/
  | pcZero
  /-- STEP_LIMIT steps were taken (R8) -/
  | stepLimit
  /-- the calls the model was asked to make are used up; the loop itself would go on -/
  | callsUsed
  /-- a step was refused; no step of this model is -/
  | refused (r : Refusal)
deriving DecidableEq, Repr

/-- The optional STEP_LIMIT after one more step. -/
def lessOne : Option Nat → Option Nat
  | none => none
  | some n => some (n - 1)

/-- The run loop, for at most `calls` calls of the step. DESIGN CHOICE (log 8): a fault ends it first, then the PC-zero
policy, then the step limit; a pc that is zero before any step does not stop it. -/
def drive (policy : RunPolicy) : Nat → State → Stop × State
  | 0, s => (.callsUsed, s)
  | calls + 1, s =>
    if policy.stepLimit = some 0 then (.stepLimit, s)
    else
      match step s with
      | .fault f => (.faulted f, s)
      | .refused r => (.refused r, s)
      | .next t =>
        match t.hart.run with
        | .halted f => (.faulted f, t)
        | .running =>
          if policy.haltOnPcZero && t.hart.pc == 0#_ then (.pcZero, t)
          else drive { policy with stepLimit := lessOne policy.stepLimit } calls t

end Sys2Proof.Machine
end

