-- ==== Sys2Proof/Safety.lean ====
section
/-! DEFINITION. The terms claims are stated in: the invariants of the machine, what a safe step is, and what it is for an
instruction to complete or to halt. -/

namespace Sys2Proof.Machine

variable {k : XLen}

/-! ### Invariants -/

/-- The window is one that can exist: `MEM_SIZE ≥ 1` and `MEM_BASE + MEM_SIZE ≤ 2^XLEN` (00_scope.md R7). -/
def Memory.fits (k : XLen) (m : Memory) : Bool := decide (1 ≤ m.size) && decide (m.base + m.size ≤ 2 ^ k.bits)

/-- The invariant of every state: memory is in its canonical form, the window fits, and x0's slot holds zero (R30: "x[0]
always 0"). -/
abbrev State.Inv (s : State) : Prop :=
  s.hart.mem.wf = true ∧ s.hart.mem.fits s.xlen = true ∧ s.hart.x[0] = 0#_

/-- The pc is even: branch and JAL offsets are multiples of 2 and JALR clears bit 0 (10_state.md R40). -/
abbrev State.PcEven (s : State) : Prop := s.hart.pc.toNat % 2 = 0

/-! ### Steps -/

/-- The step from `s` leaves the core running: no fault was raised (60_exceptions.md R344). -/
def SafeStep (s : State) : Prop := ∃ t, step s = .next t ∧ t.hart.run = .running

/-- The core is running and its fetch gives the word `w`. -/
abbrev Hart.Fetches (m : Hart k) (w : BitVec 32) : Prop := m.run = .running ∧ m.fetch = .word w

/-- The two harts read the same registers. -/
abbrev SameRegs (m t : Hart k) : Prop := ∀ r : Reg, t.reg r = m.reg r

/-- The two harts have the same window, and every address reads the same byte. -/
abbrev SameMemory (m t : Hart k) : Prop :=
  t.mem.base = m.mem.base ∧ t.mem.size = m.mem.size ∧ ∀ a : Nat, t.mem.byte a = m.mem.byte a

/-- `i` completes from `m`: register `rd` (if any, and not x0) becomes `v`, the pc becomes `a`, and every other register,
every byte of memory, the window and the run state are as before. -/
def Completes (i : Instr) (m : Hart k) (rd : Option Reg) (v a : Word k) : Prop :=
  ∃ t : Hart k, exec i ⟨k, m⟩ = .next ⟨k, t⟩
    ∧ (∀ r : Reg, t.reg r = if rd = some r ∧ r ≠ 0 then v else m.reg r)
    ∧ t.pc = a ∧ SameMemory m t ∧ t.run = m.run

/-- `i` halts the core from `m` with the fault `f` and changes nothing else (R344). -/
def Halts (i : Instr) (m : Hart k) (f : Fault) : Prop :=
  ∃ t : Hart k, exec i ⟨k, m⟩ = .next ⟨k, t⟩ ∧ t.run = .halted f ∧ SameRegs m t ∧ t.pc = m.pc ∧ SameMemory m t

/-- The store `i` completes from `m`: the low `n` bytes of `v` stand at `a .. a+n-1`, least significant first, every other
byte, every register, the window and the run state are as before, and the pc advances by 4. -/
def StoresLow (i : Instr) (m : Hart k) (n a : Nat) (v : Word k) : Prop :=
  ∃ t : Hart k, exec i ⟨k, m⟩ = .next ⟨k, t⟩ ∧ SameRegs m t ∧ t.pc = m.pc + 4#_ ∧ t.run = m.run
    ∧ t.mem.base = m.mem.base ∧ t.mem.size = m.mem.size
    ∧ (∀ j < n, t.mem.byte (a + j) = v.extractLsb' (8 * j) 8)
    ∧ ∀ y : Nat, (y < a ∨ a + n ≤ y) → t.mem.byte y = m.mem.byte y

/-- `i` completes from `m` with the pc at `a`, linking `A + 4` in `rd` if there is one, and leaves the core running; the step
after it halts the core there with Misaligned and changes nothing else (40_execution_cycle.md R163, R161). -/
def CompletesThenMisaligned (i : Instr) (m : Hart k) (rd : Option Reg) (a : Word k) : Prop :=
  ∃ t : Hart k, exec i ⟨k, m⟩ = .next ⟨k, t⟩ ∧ t.run = .running ∧ t.pc = a
    ∧ (∀ r : Reg, t.reg r = if rd = some r ∧ r ≠ 0 then m.pc + 4#_ else m.reg r) ∧ SameMemory m t
    ∧ ∃ u : Hart k, step ⟨k, t⟩ = .next ⟨k, u⟩ ∧ u.run = .halted .misaligned ∧ u.pc = a ∧ SameRegs t u ∧ SameMemory t u

end Sys2Proof.Machine

namespace Sys2Proof

/-! ### What an instruction touches -/

/-- The register an instruction writes, by its class (10_state.md R35). -/
def Instr.dest : Instr → Option Reg
  | .lb rd _ _ | .lh rd _ _ | .lw rd _ _ | .ld rd _ _ | .lbu rd _ _ | .lhu rd _ _ => some rd
  | .sb _ _ _ | .sh _ _ _ | .sw _ _ _ | .sd _ _ _ => none
  | .addi rd _ _ | .slti rd _ _ | .sltiu rd _ _ | .xori rd _ _ | .ori rd _ _ | .andi rd _ _ => some rd
  | .slli rd _ _ | .srli rd _ _ | .srai rd _ _ => some rd
  | .addiw rd _ _ | .slliw rd _ _ | .srliw rd _ _ | .sraiw rd _ _ => some rd
  | .add rd _ _ | .sub rd _ _ | .sll rd _ _ | .slt rd _ _ | .sltu rd _ _ => some rd
  | .xor rd _ _ | .srl rd _ _ | .sra rd _ _ | .or rd _ _ | .and rd _ _ => some rd
  | .addw rd _ _ | .subw rd _ _ | .sllw rd _ _ | .srlw rd _ _ | .sraw rd _ _ => some rd
  | .lui rd _ | .auipc rd _ => some rd
  | .beq _ _ _ | .bne _ _ _ | .blt _ _ _ | .bge _ _ _ | .bltu _ _ _ | .bgeu _ _ _ => none
  | .jalr rd _ _ | .jal rd _ => some rd
  | .ecall | .ebreak | .fence _ _ _ _ _ => none

/-- How many bytes a LOAD reads and from which base and offset; `none` for every other class (20_memory.md R81). -/
def Instr.loads : Instr → Option (Nat × Reg × BitVec 12)
  | .lb _ rs1 imm | .lbu _ rs1 imm => some (1, rs1, imm)
  | .lh _ rs1 imm | .lhu _ rs1 imm => some (2, rs1, imm)
  | .lw _ rs1 imm => some (4, rs1, imm)
  | .ld _ rs1 imm => some (8, rs1, imm)
  | .sb _ _ _ | .sh _ _ _ | .sw _ _ _ | .sd _ _ _ => none
  | .addi _ _ _ | .slti _ _ _ | .sltiu _ _ _ | .xori _ _ _ | .ori _ _ _ | .andi _ _ _ => none
  | .slli _ _ _ | .srli _ _ _ | .srai _ _ _ => none
  | .addiw _ _ _ | .slliw _ _ _ | .srliw _ _ _ | .sraiw _ _ _ => none
  | .add _ _ _ | .sub _ _ _ | .sll _ _ _ | .slt _ _ _ | .sltu _ _ _ => none
  | .xor _ _ _ | .srl _ _ _ | .sra _ _ _ | .or _ _ _ | .and _ _ _ => none
  | .addw _ _ _ | .subw _ _ _ | .sllw _ _ _ | .srlw _ _ _ | .sraw _ _ _ => none
  | .lui _ _ | .auipc _ _ => none
  | .beq _ _ _ | .bne _ _ _ | .blt _ _ _ | .bge _ _ _ | .bltu _ _ _ | .bgeu _ _ _ => none
  | .jalr _ _ _ | .jal _ _ => none
  | .ecall | .ebreak | .fence _ _ _ _ _ => none

/-- How many bytes a STORE writes and to which base and offset; `none` for every other class (20_memory.md R81). -/
def Instr.stores : Instr → Option (Nat × Reg × BitVec 12)
  | .sb rs1 _ imm => some (1, rs1, imm)
  | .sh rs1 _ imm => some (2, rs1, imm)
  | .sw rs1 _ imm => some (4, rs1, imm)
  | .sd rs1 _ imm => some (8, rs1, imm)
  | .lb _ _ _ | .lh _ _ _ | .lw _ _ _ | .ld _ _ _ | .lbu _ _ _ | .lhu _ _ _ => none
  | .addi _ _ _ | .slti _ _ _ | .sltiu _ _ _ | .xori _ _ _ | .ori _ _ _ | .andi _ _ _ => none
  | .slli _ _ _ | .srli _ _ _ | .srai _ _ _ => none
  | .addiw _ _ _ | .slliw _ _ _ | .srliw _ _ _ | .sraiw _ _ _ => none
  | .add _ _ _ | .sub _ _ _ | .sll _ _ _ | .slt _ _ _ | .sltu _ _ _ => none
  | .xor _ _ _ | .srl _ _ _ | .sra _ _ _ | .or _ _ _ | .and _ _ _ => none
  | .addw _ _ _ | .subw _ _ _ | .sllw _ _ _ | .srlw _ _ _ | .sraw _ _ _ => none
  | .lui _ _ | .auipc _ _ => none
  | .beq _ _ _ | .bne _ _ _ | .blt _ _ _ | .bge _ _ _ | .bltu _ _ _ | .bgeu _ _ _ => none
  | .jalr _ _ _ | .jal _ _ => none
  | .ecall | .ebreak | .fence _ _ _ _ _ => none

/-- BRANCH, JALR and JAL: the classes that set the pc themselves (40_execution_cycle.md R163). -/
def Instr.controls : Instr → Bool
  | .beq _ _ _ | .bne _ _ _ | .blt _ _ _ | .bge _ _ _ | .bltu _ _ _ | .bgeu _ _ _ => true
  | .jalr _ _ _ | .jal _ _ => true
  | .lb _ _ _ | .lh _ _ _ | .lw _ _ _ | .ld _ _ _ | .lbu _ _ _ | .lhu _ _ _ => false
  | .sb _ _ _ | .sh _ _ _ | .sw _ _ _ | .sd _ _ _ => false
  | .addi _ _ _ | .slti _ _ _ | .sltiu _ _ _ | .xori _ _ _ | .ori _ _ _ | .andi _ _ _ => false
  | .slli _ _ _ | .srli _ _ _ | .srai _ _ _ => false
  | .addiw _ _ _ | .slliw _ _ _ | .srliw _ _ _ | .sraiw _ _ _ => false
  | .add _ _ _ | .sub _ _ _ | .sll _ _ _ | .slt _ _ _ | .sltu _ _ _ => false
  | .xor _ _ _ | .srl _ _ _ | .sra _ _ _ | .or _ _ _ | .and _ _ _ => false
  | .addw _ _ _ | .subw _ _ _ | .sllw _ _ _ | .srlw _ _ _ | .sraw _ _ _ => false
  | .lui _ _ | .auipc _ _ => false
  | .ecall | .ebreak | .fence _ _ _ _ _ => false

end Sys2Proof
end

