-- ==== Sys2Proof/Certificates/Slice0/Obligations.lean ====
section
/-! DEFINITION. The statements for the provers. Each docstring names the rules of spec/ it comes from; where a clause is the
spec's own decision or the model's choice, it names the decision or the log entry. -/

open Sys2Proof Sys2Proof.Machine

/-! ### Reset (70_reset_and_hazards.md 1; 10_state.md 6) -/

/-- Reset creates the state from the parameters, for every choice of them (R370, R46 to R49; decisions D4 and D5 leave the
values open). That `State.reset` is the reset of the named parameters is the model's choice (logs 2 and 3). -/
def Obligations.ResetStateHoldsTheParameters : Prop :=
  (∀ p : Params, (State.resetOf p).xlen = p.xlen
    ∧ (State.resetOf p).hart.run = .running
    ∧ (State.resetOf p).hart.pc = p.resetPc
    ∧ (State.resetOf p).hart.reg 0 = 0#_
    ∧ (∀ j : Fin 31, (State.resetOf p).hart.reg j.succ = p.initX[j])
    ∧ (State.resetOf p).hart.mem.base = p.memBase
    ∧ (State.resetOf p).hart.mem.size = p.memSize)
  ∧ State.reset = State.resetOf Params.named

/-- The reset image: a loaded byte where a segment covers the address, zero elsewhere (R372). That no two segments claim one
address is part of `Params.valid` and the model's choice (log 7). -/
def Obligations.ResetImageIsTheLoadedBytesAndZeroElsewhere : Prop :=
  ∀ p : Params, p.valid = true →
    (∀ g ∈ p.image, ∀ (j : Nat) (h : j < g.bytes.length),
      (State.resetOf p).hart.mem.byte (g.addr + j) = g.bytes[j])
    ∧ ∀ a : Nat, (∀ g ∈ p.image, ¬ (g.addr ≤ a ∧ a < g.addr + g.bytes.length)) →
      (State.resetOf p).hart.mem.byte a = 0#8

/-- Valid parameters reset to a state that meets the invariant, and the named parameters are valid. -/
def Obligations.ResetMeetsTheStateInvariant : Prop :=
  (∀ p : Params, p.valid = true → (State.resetOf p).Inv) ∧ Params.named.valid = true ∧ State.reset.Inv

/-! ### Registers, pc and the host's view (10_state.md) -/

/-- R32: "reads of index 0 always yield zero". -/
def Obligations.ZeroRegisterReadsZero : Prop := ∀ (k : XLen) (m : Hart k), m.reg 0 = 0#_

/-- The write port of the register file: the register written, unless it is x0, and no other (R33, R31). -/
def Obligations.RegisterWriteReachesOneRegisterUnlessZero : Prop :=
  ∀ (k : XLen) (m : Hart k) (r q : Reg) (v : Word k),
    ((m.setReg r v).reg q = if q = r ∧ r ≠ 0 then v else m.reg q)
    ∧ (m.setReg r v).pc = m.pc ∧ (m.setReg r v).mem = m.mem ∧ (m.setReg r v).run = m.run

/-- The host's snapshot shows all 32 registers and the pc (R44), and the report of a halted core adds its fault (R345). -/
def Obligations.SnapshotAndReportShowRegistersPcAndFault : Prop :=
  (∀ (k : XLen) (m : Hart k), (∀ r : Reg, m.snapshot.1[r] = m.reg r) ∧ m.snapshot.2 = m.pc)
  ∧ ∀ (k : XLen) (m : Hart k),
    (m.run = .running → (State.mk k m).report = none)
    ∧ ∀ f : Fault, m.run = .halted f → (State.mk k m).report = some (f, m.snapshot)

/-! ### Memory and the load-store unit (20_memory.md) -/

/-- R72: in bounds is over unbounded integers, and an access is refused exactly when it is not in bounds. -/
def Obligations.AccessSucceedsExactlyInsideTheWindow : Prop :=
  ∀ (m : Memory) (a n : Nat),
    (m.inBounds a n = true ↔ m.base ≤ a ∧ a + n ≤ m.base + m.size)
    ∧ ((m.read a n).isSome = true ↔ m.base ≤ a ∧ a + n ≤ m.base + m.size)
    ∧ ∀ v : BitVec (8 * n), (m.write a n v).isSome = true ↔ m.base ≤ a ∧ a + n ≤ m.base + m.size

/-- R74: MemRead assembles the bytes little-endian, or raises OutOfBounds. -/
def Obligations.MemReadAssemblesLittleEndian : Prop :=
  ∀ (m : Memory) (a n : Nat),
    (m.inBounds a n = false → m.read a n = none)
    ∧ (m.inBounds a n = true → ∃ v, m.read a n = some v
        ∧ ∀ j < 8 * n, v.getLsbD j = (m.byte (a + j / 8)).getLsbD (j % 8))

/-- R75: MemWrite stores `v[8j+7 : 8j]` at each address and nothing elsewhere, or raises OutOfBounds and writes no byte. -/
def Obligations.MemWriteStoresLittleEndianOrNothing : Prop :=
  ∀ (m : Memory) (a n : Nat) (v : BitVec (8 * n)), m.wf = true →
    (m.inBounds a n = false → m.write a n v = none)
    ∧ (m.inBounds a n = true → ∃ m', m.write a n v = some m' ∧ m'.base = m.base ∧ m'.size = m.size
        ∧ (∀ j < n, m'.byte (a + j) = v.extractLsb' (8 * j) 8)
        ∧ ∀ y : Nat, (y < a ∨ a + n ≤ y) → m'.byte y = m.byte y)

/-- Two canonical memories with the same window and the same bytes are the same data (the model's memory, log 11). -/
def Obligations.CanonicalMemoriesAreEqualWhenTheirBytesAre : Prop :=
  ∀ m m' : Memory, m.wf = true → m'.wf = true → m.base = m'.base → m.size = m'.size →
    (∀ a : Nat, m.byte a = m'.byte a) → m = m'

/-- R78: LSULoad reads n bytes and widens them, keeping the signed value when signed and the unsigned one otherwise. -/
def Obligations.LsuLoadWidensWhatMemReadGives : Prop :=
  ∀ (k : XLen) (m : Memory) (addr : Word k) (n : Nat), 1 ≤ n → 8 * n ≤ k.bits →
    (m.read addr.toNat n = none → ∀ signed, lsuLoad m addr n signed = none)
    ∧ ∀ v, m.read addr.toNat n = some v →
      (∃ u : Word k, lsuLoad m addr n true = some u ∧ u.toInt = v.toInt)
      ∧ (∃ u : Word k, lsuLoad m addr n false = some u ∧ u.toNat = v.toNat)

/-- R79: LSUStore writes the low 8n bits of the store data. -/
def Obligations.LsuStoreWritesTheLowBits : Prop :=
  ∀ (k : XLen) (m : Memory) (addr data : Word k) (n : Nat), 8 * n ≤ k.bits →
    ∃ v : BitVec (8 * n), (∀ j < 8 * n, v.getLsbD j = data.getLsbD j)
      ∧ lsuStore m addr n data = m.write addr.toNat n v

/-- Store then load at the same width and address gives the value masked to the width, widened as the load says (R214). -/
def Obligations.StoreThenLoadReturnsTheMaskedValue : Prop :=
  ∀ (k : XLen) (m : Memory) (addr v : Word k) (n : Nat), m.wf = true → n ∈ [1, 2, 4, 8] → 8 * n ≤ k.bits →
    m.inBounds addr.toNat n = true →
    ∃ m', lsuStore m addr n v = some m'
      ∧ (∃ u : Word k, lsuLoad m' addr n false = some u ∧ u.toNat = v.toNat % 2 ^ (8 * n))
      ∧ (∃ u : Word k, lsuLoad m' addr n true = some u ∧ u.toInt = Int.bmod v.toInt (2 ^ (8 * n)))

/-- R166: the effective addresses and the JALR target are sums modulo 2^XLEN; JALR clears bit 0 and keeps every other bit. -/
def Obligations.EffectiveAddressesWrapModuloTheWidth : Prop :=
  ∀ (k : XLen) (m : Hart k) (rs1 : Reg) (imm : BitVec 12),
    m.loadAddr rs1 imm = BitVec.ofInt k.bits ((m.reg rs1).toInt + imm.toInt)
    ∧ m.storeAddr rs1 imm = BitVec.ofInt k.bits ((m.reg rs1).toInt + imm.toInt)
    ∧ ∀ j < k.bits, (m.jalrTarget rs1 imm).getLsbD j
        = (decide (j ≠ 0) && (BitVec.ofInt k.bits ((m.reg rs1).toInt + imm.toInt)).getLsbD j)

/-! ### The decoder (30_encoding.md) -/

/-- R111: the decoder's fields, at the same positions for every word. -/
def Obligations.DecoderFieldsStandAtTheirPositions : Prop :=
  ∀ (k : XLen) (w : BitVec 32),
    (∀ j < 7, (decoded k w).opcode.getLsbD j = w.getLsbD j)
    ∧ (∀ j < 5, (decoded k w).rd.val.testBit j = w.getLsbD (7 + j))
    ∧ (∀ j < 3, (decoded k w).funct3.getLsbD j = w.getLsbD (12 + j))
    ∧ (∀ j < 5, (decoded k w).rs1.val.testBit j = w.getLsbD (15 + j))
    ∧ (∀ j < 5, (decoded k w).rs2.val.testBit j = w.getLsbD (20 + j))
    ∧ ∀ j < 7, (decoded k w).funct7.getLsbD j = w.getLsbD (25 + j)

/-- R118, R119, R120, R122: every bit of imm_I, imm_S, imm_B and imm_J, sign extension included. -/
def Obligations.SignedImmediatesTakeTheirBitsFromTheWord : Prop :=
  ∀ (k : XLen) (w : BitVec 32) (j : Nat), j < k.bits →
    ((decoded k w).immI.getLsbD j = if j < 11 then w.getLsbD (20 + j) else w.getLsbD 31)
    ∧ ((decoded k w).immS.getLsbD j =
        if j < 5 then w.getLsbD (7 + j) else if j < 11 then w.getLsbD (20 + j) else w.getLsbD 31)
    ∧ ((decoded k w).immB.getLsbD j =
        if j = 0 then false else if j < 5 then w.getLsbD (7 + j) else if j < 11 then w.getLsbD (20 + j)
        else if j = 11 then w.getLsbD 7 else w.getLsbD 31)
    ∧ ((decoded k w).immJ.getLsbD j =
        if j = 0 then false else if j < 11 then w.getLsbD (20 + j) else if j = 11 then w.getLsbD 20
        else if j < 20 then w.getLsbD j else w.getLsbD 31)

/-- imm_U is the field in bits 31 to 12 over zeros, its bit 31 copied upward (R121; the convention and the extension are the
spec's decision D6). -/
def Obligations.UpperImmediateIsPositionedAndSignExtended : Prop :=
  ∀ (k : XLen) (w : BitVec 32) (j : Nat), j < k.bits →
    ((decoded k w).immU.getLsbD j = if j < 12 then false else if j < 32 then w.getLsbD j else w.getLsbD 31)

/-- The instruction operands are the decoder's immediates: ranges as R118 to R122 give them, on the signed value. -/
def Obligations.ImmediatesKeepTheirSignedValueAndRange : Prop :=
  ∀ k : XLen,
    (∀ imm : BitVec 12, (immI k imm).toInt = imm.toInt ∧ (immS k imm).toInt = imm.toInt
      ∧ -2048 ≤ (immI k imm).toInt ∧ (immI k imm).toInt ≤ 2047)
    ∧ (∀ imm : BitVec 13, imm[0] = false → (immB k imm).toInt = imm.toInt
      ∧ -4096 ≤ (immB k imm).toInt ∧ (immB k imm).toInt ≤ 4094 ∧ (immB k imm).toInt % 2 = 0)
    ∧ (∀ imm : BitVec 21, imm[0] = false → (immJ k imm).toInt = imm.toInt
      ∧ -1048576 ≤ (immJ k imm).toInt ∧ (immJ k imm).toInt ≤ 1048574 ∧ (immJ k imm).toInt % 2 = 0)
    ∧ ∀ imm : BitVec 20, (immU k imm).toInt = 4096 * imm.toInt

/-- R137: LUI, AUIPC and JAL are selected by the opcode alone. -/
def Obligations.UpperAndJalAreSelectedByOpcodeAlone : Prop :=
  ∀ (k : XLen) (w : BitVec 32),
    (opcodeOf w = 0x37#7 → decode k w = .legal (.lui (rdOf w) (bitsU w)))
    ∧ (opcodeOf w = 0x17#7 → decode k w = .legal (.auipc (rdOf w) (bitsU w)))
    ∧ (opcodeOf w = 0x6F#7 → decode k w = .legal (.jal (rdOf w) (bitsJ w)))

/-- A few words of 95_test_vectors.md decode to the instructions they stand for. -/
def Obligations.WrittenOutWordsDecodeToTheirInstructions : Prop :=
  decode .rv32 0x01030283#32 = .legal (.lb 5 6 0x010#12)
  ∧ decode .rv64 0xFE733E23#32 = .legal (.sd 6 7 0xFFC#12)
  ∧ decode .rv32 0xFFF30293#32 = .legal (.addi 5 6 0xFFF#12)
  ∧ decode .rv64 0x43F35293#32 = .legal (.srai 5 6 63#6)
  ∧ decode .rv64 0x407352BB#32 = .legal (.sraw 5 6 7)
  ∧ decode .rv32 0x407302B3#32 = .legal (.sub 5 6 7)
  ∧ decode .rv32 0x123452B7#32 = .legal (.lui 5 0x12345#20)
  ∧ decode .rv32 0xFE000EE3#32 = .legal (.beq 0 0 0x1FFC#13)
  ∧ decode .rv32 0xFF9FF0EF#32 = .legal (.jal 1 0x1FFFF8#21)
  ∧ decode .rv32 0x00100073#32 = .legal .ebreak
  ∧ decode .rv32 0x8FF2828F#32 = .legal (.fence 8 15 15 5 5)
  ∧ decode .rv32 0x02431293#32 = .illegal .funct7
  ∧ decode .rv64 0x01036283#32 = .illegal .funct3

/-- Decoding an encoded well-formed instruction gives it back, every operand at every value the encoding admits. -/
def Obligations.DecodeOfEncodedInstructionIsTheInstruction : Prop :=
  ∀ (k : XLen) (i : Instr), i.wellFormed k = true → decode k (encode i) = .legal i

/-- A word of legal class decodes to a well-formed instruction whose encoding is that word: no bit is dropped. -/
def Obligations.EncodeOfDecodedWordIsTheWord : Prop :=
  ∀ (k : XLen) (w : BitVec 32) (i : Instr), decode k w = .legal i → i.wellFormed k = true ∧ encode i = w

/-- The decoder and the opcode table of R127 agree: a word is of legal class exactly when it stands in a row, and then as that
row's mnemonic; every other word is Illegal (R139). -/
def Obligations.DecoderAgreesWithTheOpcodeTable : Prop :=
  ∀ (k : XLen) (w : BitVec 32),
    (∀ i, decode k w = .legal i → ∃ row ∈ opcodeTable k, row.has w = true ∧ row.mnemonic = i.mnemonic)
    ∧ ∀ row ∈ opcodeTable k, row.has w = true → ∃ i, decode k w = .legal i ∧ i.mnemonic = row.mnemonic

/-- No word stands in two rows of the opcode table. -/
def Obligations.NoWordStandsInTwoOpcodeRows : Prop :=
  ∀ (k : XLen) (w : BitVec 32), ∀ r ∈ opcodeTable k, ∀ q ∈ opcodeTable k, r.has w = true → q.has w = true → r = q

/-- SYSTEM and MISC-MEM (R141; decisions D10 and D11): only the two exact words are ECALL and EBREAK; FENCE is funct3 000
whatever the other bits hold. -/
def Obligations.SystemWordsAreExactAndFenceBitsAreFree : Prop :=
  ∀ (k : XLen) (w : BitVec 32),
    (opcodeOf w = 0x73#7 →
      (decode k w = .legal .ecall ↔ w = 0x00000073#32) ∧ (decode k w = .legal .ebreak ↔ w = 0x00100073#32)
      ∧ (w ≠ 0x00000073#32 → w ≠ 0x00100073#32 → ∃ why, decode k w = .illegal why))
    ∧ (opcodeOf w = 0x0F#7 → funct3Of w = 0b000#3 → ∃ fm pred succ rs1 rd, decode k w = .legal (.fence fm pred succ rs1 rd))
    ∧ (opcodeOf w = 0x0F#7 → funct3Of w ≠ 0b000#3 → ∃ why, decode k w = .illegal why)

/-- Words the spec names as Illegal: `inst[1:0] ≠ 11` (R110), the OP funct7 0000001 (R135), LWU and LOAD funct3 111 (R130, R140),
BRANCH funct3 010 and 011 and JALR funct3 ≠ 000 (R138), OP-IMM-32 and OP-32 at XLEN 32 (R134, R136). -/
def Obligations.UnlistedWordsAreIllegal : Prop :=
  ∀ (k : XLen) (w : BitVec 32),
    (w.extractLsb' 0 2 ≠ 0b11#2 ∨ (opcodeOf w = 0x33#7 ∧ funct7Of w = 0b0000001#7)
      ∨ (opcodeOf w = 0x03#7 ∧ (funct3Of w = 0b110#3 ∨ funct3Of w = 0b111#3))
      ∨ (opcodeOf w = 0x63#7 ∧ (funct3Of w = 0b010#3 ∨ funct3Of w = 0b011#3))
      ∨ (opcodeOf w = 0x67#7 ∧ funct3Of w ≠ 0b000#3)
      ∨ (k = .rv32 ∧ (opcodeOf w = 0x1B#7 ∨ opcodeOf w = 0x3B#7))) →
    ∃ why, decode k w = .illegal why

/-! ### The step and faults (40_execution_cycle.md 1; 60_exceptions.md) -/

/-- One step is fetch, decode, execute (R160, R161; the order of the fetch's checks is the spec's decision D13 and D15). -/
def Obligations.StepRunsTheDecodedInstruction : Prop :=
  ∀ (k : XLen) (m : Hart k), m.run = .running →
    (m.pc.toNat % 4 ≠ 0 → step ⟨k, m⟩ = .next ⟨k, { m with run := .halted .misaligned }⟩)
    ∧ (m.pc.toNat % 4 = 0 → m.mem.read m.pc.toNat 4 = none →
        step ⟨k, m⟩ = .next ⟨k, { m with run := .halted .outOfBounds }⟩)
    ∧ ∀ w : BitVec 32, m.pc.toNat % 4 = 0 → m.mem.read m.pc.toNat 4 = some w →
      (∀ i, decode k w = .legal i → step ⟨k, m⟩ = exec i ⟨k, m⟩)
      ∧ ∀ why, decode k w = .illegal why → step ⟨k, m⟩ = .next ⟨k, { m with run := .halted .illegalInstruction }⟩

/-- A running core always takes its step; a halted one never does (R346), and answers the fault that stopped it (log 4). -/
def Obligations.StepAnswersExactlyWhenRunning : Prop :=
  ∀ (k : XLen) (m : Hart k),
    (m.run = .running → ∃ t : Hart k, step ⟨k, m⟩ = .next ⟨k, t⟩)
    ∧ ∀ f : Fault, m.run = .halted f → step ⟨k, m⟩ = .fault f

/-- A step that raises a fault changes no register, no byte of memory and not the pc (R344, decision D16). -/
def Obligations.FaultingStepChangesOnlyTheRunState : Prop :=
  ∀ (k : XLen) (m t : Hart k) (f : Fault), step ⟨k, m⟩ = .next ⟨k, t⟩ → t.run = .halted f →
    m.run = .running ∧ SameRegs m t ∧ t.pc = m.pc ∧ SameMemory m t

/-- Which fault a step raises, exactly (R341 to R343), in the priority of R347 (decision D15). -/
def Obligations.FaultKindFollowsThePriority : Prop :=
  ∀ (k : XLen) (m : Hart k), m.run = .running → ∃ t : Hart k, step ⟨k, m⟩ = .next ⟨k, t⟩
    ∧ (t.run = .halted .misaligned ↔ m.pc.toNat % 4 ≠ 0)
    ∧ (t.run = .halted .illegalInstruction ↔
        m.pc.toNat % 4 = 0 ∧ ∃ w why, m.mem.read m.pc.toNat 4 = some w ∧ decode k w = .illegal why)
    ∧ (t.run = .halted .outOfBounds ↔
        m.pc.toNat % 4 = 0 ∧ (m.mem.inBounds m.pc.toNat 4 = false
          ∨ ∃ w i n rs1 imm, m.mem.read m.pc.toNat 4 = some w ∧ decode k w = .legal i
            ∧ (i.loads = some (n, rs1, imm) ∨ i.stores = some (n, rs1, imm))
            ∧ m.mem.inBounds (m.reg rs1 + sext k imm).toNat n = false))

/-- JALR, JAL or a taken branch to a target that is not a multiple of 4 completes, the jumps linking `A + 4`; the next step
halts there with Misaligned (R163, R161, decision D13). -/
def Obligations.MisalignedJumpTargetFaultsAtTheNextFetch : Prop :=
  ∀ (k : XLen) (m : Hart k) (rd rs1 rs2 : Reg) (imm12 : BitVec 12) (imm13 : BitVec 13) (imm21 : BitVec 21), m.run = .running →
    ((m.jalrTarget rs1 imm12).toNat % 4 ≠ 0 →
      CompletesThenMisaligned (.jalr rd rs1 imm12) m (some rd) (m.jalrTarget rs1 imm12))
    ∧ ((m.jalTarget imm21).toNat % 4 ≠ 0 → CompletesThenMisaligned (.jal rd imm21) m (some rd) (m.jalTarget imm21))
    ∧ ((m.branchTarget imm13).toNat % 4 ≠ 0 →
      (m.reg rs1 = m.reg rs2 → CompletesThenMisaligned (.beq rs1 rs2 imm13) m none (m.branchTarget imm13))
      ∧ (m.reg rs1 ≠ m.reg rs2 → CompletesThenMisaligned (.bne rs1 rs2 imm13) m none (m.branchTarget imm13))
      ∧ ((m.reg rs1).toInt < (m.reg rs2).toInt →
        CompletesThenMisaligned (.blt rs1 rs2 imm13) m none (m.branchTarget imm13))
      ∧ ((m.reg rs2).toInt ≤ (m.reg rs1).toInt →
        CompletesThenMisaligned (.bge rs1 rs2 imm13) m none (m.branchTarget imm13))
      ∧ ((m.reg rs1).toNat < (m.reg rs2).toNat →
        CompletesThenMisaligned (.bltu rs1 rs2 imm13) m none (m.branchTarget imm13))
      ∧ ((m.reg rs2).toNat ≤ (m.reg rs1).toNat →
        CompletesThenMisaligned (.bgeu rs1 rs2 imm13) m none (m.branchTarget imm13)))

/-- A store to the word at `A + 4` is what the next fetch reads (R87, R375, decision D22). -/
def Obligations.NextFetchSeesAStoreToIt : Prop :=
  ∀ (k : XLen) (m : Hart k) (rs1 rs2 : Reg) (imm : BitVec 12), m.mem.wf = true → m.pc.toNat % 4 = 0 →
    m.storeAddr rs1 imm = m.pc + 4#_ → m.mem.inBounds (m.pc + 4#_).toNat 4 = true →
    ∃ t : Hart k, exec (.sw rs1 rs2 imm) ⟨k, m⟩ = .next ⟨k, t⟩ ∧ t.fetch = .word ((m.reg rs2).setWidth 32)

/-! ### Whole-machine rules -/

/-- Every step keeps the invariant: canonical memory, a window that fits, x0's slot zero. -/
def Obligations.StepKeepsTheStateInvariant : Prop :=
  ∀ s t : State, s.Inv → step s = .next t → t.Inv

/-- Every step keeps an even pc even: JALR clears bit 0 and branch and JAL offsets are even (R40). -/
def Obligations.StepKeepsThePcEven : Prop :=
  ∀ s t : State, s.PcEven → step s = .next t → t.PcEven

/-- No step changes XLEN, MEM_BASE or MEM_SIZE: they are parameters (R6, R7; log 1). -/
def Obligations.StepKeepsTheParameters : Prop :=
  ∀ s t : State, step s = .next t →
    t.xlen = s.xlen ∧ t.hart.mem.base = s.hart.mem.base ∧ t.hart.mem.size = s.hart.mem.size

/-- Memory is changed only by stores, and only at the bytes they store to (R81, R79, R75). -/
def Obligations.OnlyStoresChangeMemoryAndOnlyTheirBytes : Prop :=
  ∀ (k : XLen) (m t : Hart k) (w : BitVec 32) (i : Instr), m.mem.wf = true → m.Fetches w → decode k w = .legal i →
    step ⟨k, m⟩ = .next ⟨k, t⟩ →
    (i.stores = none → SameMemory m t)
    ∧ ∀ n rs1 imm, i.stores = some (n, rs1, imm) → ∀ y : Nat,
      (y < (m.storeAddr rs1 imm).toNat ∨ (m.storeAddr rs1 imm).toNat + n ≤ y) → t.mem.byte y = m.mem.byte y

/-- A step writes at most the register its instruction's class names as `rd` (R34, R35). -/
def Obligations.StepWritesNoRegisterButTheDestination : Prop :=
  ∀ (k : XLen) (m t : Hart k), step ⟨k, m⟩ = .next ⟨k, t⟩ → ∀ r : Reg,
    t.reg r ≠ m.reg r → r ≠ 0 ∧ ∃ w i, m.Fetches w ∧ decode k w = .legal i ∧ i.dest = some r

/-- Every instruction that is not a branch or jump and raises no fault ends at `A + 4` (R162). -/
def Obligations.PcAdvancesByFourUnlessControlTransfer : Prop :=
  ∀ (k : XLen) (m t : Hart k) (w : BitVec 32) (i : Instr), m.Fetches w → decode k w = .legal i → i.controls = false →
    step ⟨k, m⟩ = .next ⟨k, t⟩ → t.run = .running → t.pc = m.pc + 4#_

/-- The run loop's own halt policies stop the driver and leave the core running; a fault is what halts it (R346, R8, decision
D18; the order of the loop's tests is the model's, log 8). -/
def Obligations.RunLoopPoliciesLeaveTheCoreRunning : Prop :=
  ∀ (policy : RunPolicy) (calls : Nat) (s : State), s.hart.run = .running →
    ((drive policy calls s).1 = .pcZero →
      policy.haltOnPcZero = true ∧ (drive policy calls s).2.hart.run = .running
        ∧ (drive policy calls s).2.hart.pc = 0#_)
    ∧ ((drive policy calls s).1 = .stepLimit →
      policy.stepLimit ≠ none ∧ (drive policy calls s).2.hart.run = .running)
    ∧ ((drive policy calls s).1 = .callsUsed → (drive policy calls s).2.hart.run = .running)
    ∧ (∀ f, (drive policy calls s).1 = .faulted f → (drive policy calls s).2.hart.run = .halted f)
    ∧ ∀ r, (drive policy calls s).1 ≠ .refused r

/-! ### Results of the instructions, with their frames

`Completes i m rd v a` says that `i` answers a next state in which `rd` (unless it is x0) is `v`, the pc is `a`, and every
other register, every byte of memory, the window and the run state are as before. -/

/-- ADD, SUB, ADDI (R260, R261, R230): sums and differences that wrap (R13). -/
def Obligations.AddAndSubtractWrap : Prop :=
  ∀ (k : XLen) (m : Hart k) (rd rs1 rs2 : Reg) (imm : BitVec 12),
    (∃ v, Completes (.add rd rs1 rs2) m (some rd) v (m.pc + 4#_)
      ∧ v.toNat = ((m.reg rs1).toNat + (m.reg rs2).toNat) % 2 ^ k.bits)
    ∧ (∃ v, Completes (.sub rd rs1 rs2) m (some rd) v (m.pc + 4#_)
      ∧ v.toInt = Int.bmod ((m.reg rs1).toInt - (m.reg rs2).toInt) (2 ^ k.bits))
    ∧ ∃ v, Completes (.addi rd rs1 imm) m (some rd) v (m.pc + 4#_)
      ∧ v.toInt = Int.bmod ((m.reg rs1).toInt + imm.toInt) (2 ^ k.bits)

/-- XOR, OR, AND and XORI, ORI, ANDI with the sign-extended immediate (R265, R268, R269, R233 to R235). -/
def Obligations.BitwiseOperationsCombineTheirOperands : Prop :=
  ∀ (k : XLen) (m : Hart k) (rd rs1 rs2 : Reg) (imm : BitVec 12),
    Completes (.xor rd rs1 rs2) m (some rd) (m.reg rs1 ^^^ m.reg rs2) (m.pc + 4#_)
    ∧ Completes (.or rd rs1 rs2) m (some rd) (m.reg rs1 ||| m.reg rs2) (m.pc + 4#_)
    ∧ Completes (.and rd rs1 rs2) m (some rd) (m.reg rs1 &&& m.reg rs2) (m.pc + 4#_)
    ∧ Completes (.xori rd rs1 imm) m (some rd) (m.reg rs1 ^^^ imm.signExtend k.bits) (m.pc + 4#_)
    ∧ Completes (.ori rd rs1 imm) m (some rd) (m.reg rs1 ||| imm.signExtend k.bits) (m.pc + 4#_)
    ∧ Completes (.andi rd rs1 imm) m (some rd) (m.reg rs1 &&& imm.signExtend k.bits) (m.pc + 4#_)

/-- SLT, SLTU, SLTI, SLTIU write 1 or 0; SLTIU's immediate is sign-extended, then compared unsigned (R263, R264, R231, R232;
the predicates are general knowledge the spec marks as such, G6). -/
def Obligations.SetIfLessThanWritesOneOrZero : Prop :=
  ∀ (k : XLen) (m : Hart k) (rd rs1 rs2 : Reg) (imm : BitVec 12),
    Completes (.slt rd rs1 rs2) m (some rd) (if (m.reg rs1).toInt < (m.reg rs2).toInt then 1#_ else 0#_) (m.pc + 4#_)
    ∧ Completes (.sltu rd rs1 rs2) m (some rd) (if (m.reg rs1).toNat < (m.reg rs2).toNat then 1#_ else 0#_) (m.pc + 4#_)
    ∧ Completes (.slti rd rs1 imm) m (some rd) (if (m.reg rs1).toInt < imm.toInt then 1#_ else 0#_) (m.pc + 4#_)
    ∧ Completes (.sltiu rd rs1 imm) m (some rd)
        (if (m.reg rs1).toNat < (imm.signExtend k.bits).toNat then 1#_ else 0#_) (m.pc + 4#_)

/-- SLL, SRL, SRA (R262, R266, R267): by the register's value modulo XLEN; SRA rounds the signed value down. -/
def Obligations.RegisterShiftsUseTheAmountModuloTheWidth : Prop :=
  ∀ (k : XLen) (m : Hart k) (rd rs1 rs2 : Reg),
    (∃ v, Completes (.sll rd rs1 rs2) m (some rd) v (m.pc + 4#_)
      ∧ v.toNat = (m.reg rs1).toNat * 2 ^ ((m.reg rs2).toNat % k.bits) % 2 ^ k.bits)
    ∧ (∃ v, Completes (.srl rd rs1 rs2) m (some rd) v (m.pc + 4#_)
      ∧ v.toNat = (m.reg rs1).toNat / 2 ^ ((m.reg rs2).toNat % k.bits))
    ∧ ∃ v, Completes (.sra rd rs1 rs2) m (some rd) v (m.pc + 4#_)
      ∧ v.toInt = (m.reg rs1).toInt / 2 ^ ((m.reg rs2).toNat % k.bits)

/-- SLLI, SRLI, SRAI (R236 to R238), for every amount that XLEN has a word for. -/
def Obligations.ImmediateShiftsUseTheirAmount : Prop :=
  ∀ (k : XLen) (m : Hart k) (rd rs1 : Reg) (shamt : BitVec 6), shamt.toNat < k.bits →
    (∃ v, Completes (.slli rd rs1 shamt) m (some rd) v (m.pc + 4#_)
      ∧ v.toNat = (m.reg rs1).toNat * 2 ^ shamt.toNat % 2 ^ k.bits)
    ∧ (∃ v, Completes (.srli rd rs1 shamt) m (some rd) v (m.pc + 4#_)
      ∧ v.toNat = (m.reg rs1).toNat / 2 ^ shamt.toNat)
    ∧ ∃ v, Completes (.srai rd rs1 shamt) m (some rd) v (m.pc + 4#_)
      ∧ v.toInt = (m.reg rs1).toInt / 2 ^ shamt.toNat

/-- ADDW, SUBW, ADDIW at XLEN 64 (R270, R271, R240): the 32-bit sum or difference, sign-extended. -/
def Obligations.WordAddAndSubtractSignExtend : Prop :=
  ∀ (m : Hart .rv64) (rd rs1 rs2 : Reg) (imm : BitVec 12),
    (∃ v, Completes (.addw rd rs1 rs2) m (some rd) v (m.pc + 4#_)
      ∧ v.toInt = Int.bmod ((m.reg rs1).toInt + (m.reg rs2).toInt) (2 ^ 32))
    ∧ (∃ v, Completes (.subw rd rs1 rs2) m (some rd) v (m.pc + 4#_)
      ∧ v.toInt = Int.bmod ((m.reg rs1).toInt - (m.reg rs2).toInt) (2 ^ 32))
    ∧ ∃ v, Completes (.addiw rd rs1 imm) m (some rd) v (m.pc + 4#_)
      ∧ v.toInt = Int.bmod ((m.reg rs1).toInt + imm.toInt) (2 ^ 32)

/-- SLLW, SRLW, SRAW, SLLIW, SRLIW, SRAIW at XLEN 64 (R272 to R274, R241 to R243): 32-bit shifts of the low word, the result
sign-extended. -/
def Obligations.WordShiftsActOnTheLowWord : Prop :=
  ∀ (m : Hart .rv64) (rd rs1 rs2 : Reg) (shamt : BitVec 5),
    (∃ v, Completes (.sllw rd rs1 rs2) m (some rd) v (m.pc + 4#_)
      ∧ v.toInt = Int.bmod ((m.reg rs1).toInt * 2 ^ ((m.reg rs2).toNat % 32)) (2 ^ 32))
    ∧ (∃ v, Completes (.srlw rd rs1 rs2) m (some rd) v (m.pc + 4#_)
      ∧ v.toInt = Int.bmod ((m.reg rs1).toNat % 2 ^ 32 / 2 ^ ((m.reg rs2).toNat % 32) : Nat) (2 ^ 32))
    ∧ (∃ v, Completes (.sraw rd rs1 rs2) m (some rd) v (m.pc + 4#_)
      ∧ v.toInt = Int.bmod (m.reg rs1).toInt (2 ^ 32) / 2 ^ ((m.reg rs2).toNat % 32))
    ∧ (∃ v, Completes (.slliw rd rs1 shamt) m (some rd) v (m.pc + 4#_)
      ∧ v.toInt = Int.bmod ((m.reg rs1).toInt * 2 ^ shamt.toNat) (2 ^ 32))
    ∧ (∃ v, Completes (.srliw rd rs1 shamt) m (some rd) v (m.pc + 4#_)
      ∧ v.toInt = Int.bmod ((m.reg rs1).toNat % 2 ^ 32 / 2 ^ shamt.toNat : Nat) (2 ^ 32))
    ∧ ∃ v, Completes (.sraiw rd rs1 shamt) m (some rd) v (m.pc + 4#_)
      ∧ v.toInt = Int.bmod (m.reg rs1).toInt (2 ^ 32) / 2 ^ shamt.toNat

/-- Bits 63 to 32 of the operands never affect the result of a W instruction (R170). -/
def Obligations.WordResultsIgnoreTheUpperHalves : Prop :=
  ∀ (m m' t t' : Hart .rv64) (rd rs1 rs2 : Reg) (imm : BitVec 12) (shamt : BitVec 5) (i : Instr),
    (∀ r : Reg, (m.reg r).setWidth 32 = (m'.reg r).setWidth 32) →
    i ∈ [.addw rd rs1 rs2, .subw rd rs1 rs2, .sllw rd rs1 rs2, .srlw rd rs1 rs2, .sraw rd rs1 rs2,
      .addiw rd rs1 imm, .slliw rd rs1 shamt, .srliw rd rs1 shamt, .sraiw rd rs1 shamt] →
    exec i ⟨.rv64, m⟩ = .next ⟨.rv64, t⟩ → exec i ⟨.rv64, m'⟩ = .next ⟨.rv64, t'⟩ → t.reg rd = t'.reg rd

/-- At XLEN 32 an instruction marked 64 in R127, and a shift amount of 32 or more, raises IllegalInstruction (R130, R131, R133,
R134, R136; for a meaning run on its own the model's reading, log 5). -/
def Obligations.Rv64OnlyInstructionsAreIllegalAtXlen32 : Prop :=
  ∀ (m : Hart .rv32) (rd rs1 rs2 : Reg) (imm : BitVec 12) (sh5 : BitVec 5) (sh6 : BitVec 6) (i : Instr),
    i ∈ [.ld rd rs1 imm, .sd rs1 rs2 imm, .addiw rd rs1 imm, .slliw rd rs1 sh5, .srliw rd rs1 sh5, .sraiw rd rs1 sh5,
      .addw rd rs1 rs2, .subw rd rs1 rs2, .sllw rd rs1 rs2, .srlw rd rs1 rs2, .sraw rd rs1 rs2]
    ∨ (32 ≤ sh6.toNat ∧ i ∈ [.slli rd rs1 sh6, .srli rd rs1 sh6, .srai rd rs1 sh6]) →
    Halts i m .illegalInstruction ∧ ∀ w : BitVec 32, decode .rv32 w ≠ .legal i

/-- LUI (R290; the positioned, sign-extended value is decision D6). -/
def Obligations.LuiWritesThePositionedImmediate : Prop :=
  ∀ (k : XLen) (m : Hart k) (rd : Reg) (imm : BitVec 20),
    ∃ v, Completes (.lui rd imm) m (some rd) v (m.pc + 4#_) ∧ v.toInt = 4096 * imm.toInt

/-- R164: AUIPC, taken branches and JAL use A, the instruction's own address, and JAL and JALR link A + 4. -/
def Obligations.PcRelativeValuesUseTheInstructionsAddress : Prop :=
  ∀ (k : XLen) (m : Hart k) (rd rs1 rs2 : Reg) (imm12 : BitVec 12) (imm13 : BitVec 13) (imm20 : BitVec 20) (imm21 : BitVec 21),
    Completes (.auipc rd imm20) m (some rd) (m.pc + immU k imm20) (m.pc + 4#_)
    ∧ Completes (.jal rd imm21) m (some rd) (m.pc + 4#_) (m.pc + immJ k imm21)
    ∧ Completes (.jalr rd rs1 imm12) m (some rd) (m.pc + 4#_) (m.jalrTarget rs1 imm12)
    ∧ (m.reg rs1 = m.reg rs2 → Completes (.beq rs1 rs2 imm13) m none 0#_ (m.pc + immB k imm13))
    ∧ (m.reg rs1 ≠ m.reg rs2 → Completes (.bne rs1 rs2 imm13) m none 0#_ (m.pc + immB k imm13))
    ∧ ((m.reg rs1).toInt < (m.reg rs2).toInt → Completes (.blt rs1 rs2 imm13) m none 0#_ (m.pc + immB k imm13))
    ∧ ((m.reg rs2).toInt ≤ (m.reg rs1).toInt → Completes (.bge rs1 rs2 imm13) m none 0#_ (m.pc + immB k imm13))
    ∧ ((m.reg rs1).toNat < (m.reg rs2).toNat → Completes (.bltu rs1 rs2 imm13) m none 0#_ (m.pc + immB k imm13))
    ∧ ((m.reg rs2).toNat ≤ (m.reg rs1).toNat → Completes (.bgeu rs1 rs2 imm13) m none 0#_ (m.pc + immB k imm13))

/-- BEQ, BNE, BLT, BGE, BLTU, BGEU (R300 to R305): no register, no memory, the target when the condition holds, else `A + 4`. -/
def Obligations.BranchesGoToTheirTargetOrOn : Prop :=
  ∀ (k : XLen) (m : Hart k) (rs1 rs2 : Reg) (imm : BitVec 13),
    Completes (.beq rs1 rs2 imm) m none 0#_ (if m.reg rs1 = m.reg rs2 then m.pc + immB k imm else m.pc + 4#_)
    ∧ Completes (.bne rs1 rs2 imm) m none 0#_ (if m.reg rs1 = m.reg rs2 then m.pc + 4#_ else m.pc + immB k imm)
    ∧ Completes (.blt rs1 rs2 imm) m none 0#_
        (if (m.reg rs1).toInt < (m.reg rs2).toInt then m.pc + immB k imm else m.pc + 4#_)
    ∧ Completes (.bge rs1 rs2 imm) m none 0#_
        (if (m.reg rs1).toInt < (m.reg rs2).toInt then m.pc + 4#_ else m.pc + immB k imm)
    ∧ Completes (.bltu rs1 rs2 imm) m none 0#_
        (if (m.reg rs1).toNat < (m.reg rs2).toNat then m.pc + immB k imm else m.pc + 4#_)
    ∧ Completes (.bgeu rs1 rs2 imm) m none 0#_
        (if (m.reg rs1).toNat < (m.reg rs2).toNat then m.pc + 4#_ else m.pc + immB k imm)

/-- JALR's target comes from the old `rs1`, even when `rd = rs1` (R306, R36, decision D19). -/
def Obligations.JalrJumpsToTheOldRegisterValue : Prop :=
  ∀ (k : XLen) (m : Hart k) (rd : Reg) (imm : BitVec 12), rd ≠ 0 →
    ∃ t : Hart k, exec (.jalr rd rd imm) ⟨k, m⟩ = .next ⟨k, t⟩ ∧ t.reg rd = m.pc + 4#_
      ∧ t.pc.toNat = (m.reg rd + immI k imm).toNat / 2 * 2

/-- LB, LH, LW, LBU, LHU inside the window (R190 to R192, R194, R195), whatever the address's alignment (R77, decision D14). -/
def Obligations.LoadsInsideTheWindowWriteTheWidenedBytes : Prop :=
  ∀ (k : XLen) (m : Hart k) (rd rs1 : Reg) (imm : BitVec 12) (a : Nat), a = (m.loadAddr rs1 imm).toNat →
    (m.mem.inBounds a 1 = true →
      Completes (.lb rd rs1 imm) m (some rd) ((m.mem.byte a).signExtend k.bits) (m.pc + 4#_)
      ∧ Completes (.lbu rd rs1 imm) m (some rd) ((m.mem.byte a).setWidth k.bits) (m.pc + 4#_))
    ∧ (m.mem.inBounds a 2 = true →
      Completes (.lh rd rs1 imm) m (some rd) ((m.mem.byte (a + 1) ++ m.mem.byte a).signExtend k.bits) (m.pc + 4#_)
      ∧ Completes (.lhu rd rs1 imm) m (some rd) ((m.mem.byte (a + 1) ++ m.mem.byte a).setWidth k.bits) (m.pc + 4#_))
    ∧ (m.mem.inBounds a 4 = true →
      Completes (.lw rd rs1 imm) m (some rd)
        ((m.mem.byte (a + 3) ++ m.mem.byte (a + 2) ++ m.mem.byte (a + 1) ++ m.mem.byte a).signExtend k.bits)
        (m.pc + 4#_))

/-- LD at XLEN 64 (R193). -/
def Obligations.LoadDoublewordWritesEightBytes : Prop :=
  ∀ (m : Hart .rv64) (rd rs1 : Reg) (imm : BitVec 12) (a : Nat), a = (m.loadAddr rs1 imm).toNat →
    m.mem.inBounds a 8 = true →
    Completes (.ld rd rs1 imm) m (some rd)
      (m.mem.byte (a + 7) ++ m.mem.byte (a + 6) ++ m.mem.byte (a + 5) ++ m.mem.byte (a + 4)
        ++ m.mem.byte (a + 3) ++ m.mem.byte (a + 2) ++ m.mem.byte (a + 1) ++ m.mem.byte a) (m.pc + 4#_)

/-- A load not wholly inside the window halts with OutOfBounds; `rd` is not written (R342, R344, 41_loads.md). -/
def Obligations.LoadsOutsideTheWindowHalt : Prop :=
  ∀ (k : XLen) (m : Hart k) (rd rs1 : Reg) (imm : BitVec 12) (a : Nat), a = (m.loadAddr rs1 imm).toNat →
    (m.mem.inBounds a 1 = false → Halts (.lb rd rs1 imm) m .outOfBounds ∧ Halts (.lbu rd rs1 imm) m .outOfBounds)
    ∧ (m.mem.inBounds a 2 = false → Halts (.lh rd rs1 imm) m .outOfBounds ∧ Halts (.lhu rd rs1 imm) m .outOfBounds)
    ∧ (m.mem.inBounds a 4 = false → Halts (.lw rd rs1 imm) m .outOfBounds)
    ∧ (k = .rv64 → m.mem.inBounds a 8 = false → Halts (.ld rd rs1 imm) m .outOfBounds)

/-- SB, SH, SW and, at XLEN 64, SD inside the window (R210 to R213). -/
def Obligations.StoresInsideTheWindowWriteTheLowBytes : Prop :=
  ∀ (k : XLen) (m : Hart k) (rs1 rs2 : Reg) (imm : BitVec 12) (a : Nat), m.mem.wf = true →
    a = (m.storeAddr rs1 imm).toNat →
    (m.mem.inBounds a 1 = true → StoresLow (.sb rs1 rs2 imm) m 1 a (m.reg rs2))
    ∧ (m.mem.inBounds a 2 = true → StoresLow (.sh rs1 rs2 imm) m 2 a (m.reg rs2))
    ∧ (m.mem.inBounds a 4 = true → StoresLow (.sw rs1 rs2 imm) m 4 a (m.reg rs2))
    ∧ (k = .rv64 → m.mem.inBounds a 8 = true → StoresLow (.sd rs1 rs2 imm) m 8 a (m.reg rs2))

/-- A store not wholly inside the window halts with OutOfBounds and writes no byte (R342, 42_stores.md). -/
def Obligations.StoresOutsideTheWindowHaltAndWriteNothing : Prop :=
  ∀ (k : XLen) (m : Hart k) (rs1 rs2 : Reg) (imm : BitVec 12) (a : Nat), a = (m.storeAddr rs1 imm).toNat →
    (m.mem.inBounds a 1 = false → Halts (.sb rs1 rs2 imm) m .outOfBounds)
    ∧ (m.mem.inBounds a 2 = false → Halts (.sh rs1 rs2 imm) m .outOfBounds)
    ∧ (m.mem.inBounds a 4 = false → Halts (.sw rs1 rs2 imm) m .outOfBounds)
    ∧ (k = .rv64 → m.mem.inBounds a 8 = false → Halts (.sd rs1 rs2 imm) m .outOfBounds)

/-- ECALL, EBREAK and FENCE only advance the pc (R320 to R322, decisions D10 and D11). -/
def Obligations.EcallEbreakAndFenceOnlyAdvanceThePc : Prop :=
  ∀ (k : XLen) (m : Hart k) (fm pred succ : BitVec 4) (rs1 rd : Reg),
    Completes .ecall m none 0#_ (m.pc + 4#_)
    ∧ Completes .ebreak m none 0#_ (m.pc + 4#_)
    ∧ Completes (.fence fm pred succ rs1 rd) m none 0#_ (m.pc + 4#_)
end

