-- ==== Sys2Proof/Laws/Word.lean ====
section
/-! SUPPORT. Small facts about widths, extension and the byte order of a word. -/

namespace Sys2Proof

variable {k : XLen}

theorem XLen.le_bits (k : XLen) : 32 ≤ k.bits := by cases k <;> decide

theorem XLen.bits_pos (k : XLen) : 0 < k.bits := by cases k <;> decide

theorem XLen.bits_dvd_four (k : XLen) : 4 ∣ 2 ^ k.bits := by cases k <;> decide

theorem XLen.bits_eq_two_pow (k : XLen) : k.bits = 2 ^ k.shamtBits := by cases k <;> rfl

@[simp] theorem XLen.bits_rv32 : XLen.bits .rv32 = 32 := rfl
@[simp] theorem XLen.bits_rv64 : XLen.bits .rv64 = 64 := rfl

/-- `sext_N` keeps the signed value (R12), whenever the width has room for it. -/
theorem sext_toInt {n : Nat} (v : BitVec n) (h : n ≤ k.bits) : (sext k v).toInt = v.toInt := by
  unfold sext
  exact BitVec.toInt_signExtend_of_le h

/-- `zext_N` keeps the unsigned value (R12), whenever the width has room for it. -/
theorem zext_toNat {n : Nat} (v : BitVec n) (h : n ≤ k.bits) : (zext k v).toNat = v.toNat := by
  unfold zext
  rw [BitVec.toNat_setWidth]
  exact Nat.mod_eq_of_lt (lt_of_lt_of_le v.isLt (Nat.pow_le_pow_right (by decide) h))

/-- Bit `j` of `sext_N(v)` (R12). -/
theorem sext_getLsbD {n : Nat} (v : BitVec n) (j : Nat) (hj : j < k.bits) :
    (sext k v).getLsbD j = if j < n then v.getLsbD j else v.msb := by
  rw [sext, BitVec.getLsbD_signExtend]
  simp [hj]

end Sys2Proof
end

