-- ==== Sys2Proof/Laws/Decode.lean ====
section
/-! SUPPORT. What each field extractor reads from a word of each format (30_encoding.md R111, R113 to R117), and that the
words of two opcodes differ. -/

namespace Sys2Proof

/-- The low two bits of a word are those of its opcode. -/
theorem low_of_opcode {w : BitVec 32} {o : BitVec 7} (h : opcodeOf w = o) (ho : o.extractLsb' 0 2 = 0b11#2) :
    w.extractLsb' 0 2 = 0b11#2 := by
  subst h
  rw [← ho]
  ext i hi
  simp [opcodeOf]

/-- An OP-IMM-shaped word's funct7 and rs2 field are the two parts of its immediate. -/
theorem bitsI_eq (w : BitVec 32) : bitsI w = funct7Of w ++ w.extractLsb' 20 5 := by
  refine BitVec.eq_of_getLsbD_eq fun i hi => ?_
  simp only [bitsI, funct7Of, BitVec.getLsbD_append, BitVec.getLsbD_extractLsb']
  interval_cases i <;> simp

section
variable (f7 : BitVec 7) (rs2 rs1 : Reg) (f3 : BitVec 3) (rd : Reg) (o : BitVec 7)

theorem encR_opcode : opcodeOf (encR f7 rs2 rs1 f3 rd o) = o := by
  ext i hi
  simp only [opcodeOf, encR, BitVec.getElem_extractLsb', BitVec.getLsbD_append]
  interval_cases i <;> simp

theorem encR_funct3 : funct3Of (encR f7 rs2 rs1 f3 rd o) = f3 := by
  ext i hi
  simp only [funct3Of, encR, BitVec.getElem_extractLsb', BitVec.getLsbD_append]
  interval_cases i <;> simp

theorem encR_funct7 : funct7Of (encR f7 rs2 rs1 f3 rd o) = f7 := by
  ext i hi
  simp only [funct7Of, encR, BitVec.getElem_extractLsb', BitVec.getLsbD_append]
  interval_cases i <;> simp

theorem encR_rd : rdOf (encR f7 rs2 rs1 f3 rd o) = rd := by
  refine congrArg BitVec.toFin (show _ = regBits rd from ?_)
  ext i hi
  simp only [encR, BitVec.getElem_extractLsb', BitVec.getLsbD_append]
  interval_cases i <;> simp

theorem encR_rs1 : rs1Of (encR f7 rs2 rs1 f3 rd o) = rs1 := by
  refine congrArg BitVec.toFin (show _ = regBits rs1 from ?_)
  ext i hi
  simp only [encR, BitVec.getElem_extractLsb', BitVec.getLsbD_append]
  interval_cases i <;> simp

theorem encR_rs2 : rs2Of (encR f7 rs2 rs1 f3 rd o) = rs2 := by
  refine congrArg BitVec.toFin (show _ = regBits rs2 from ?_)
  ext i hi
  simp only [encR, BitVec.getElem_extractLsb', BitVec.getLsbD_append]
  interval_cases i <;> simp

end

section
variable (imm : BitVec 12) (rs1 : Reg) (f3 : BitVec 3) (rd : Reg) (o : BitVec 7)

theorem encI_opcode : opcodeOf (encI imm rs1 f3 rd o) = o := by
  ext i hi
  simp only [opcodeOf, encI, BitVec.getElem_extractLsb', BitVec.getLsbD_append]
  interval_cases i <;> simp

theorem encI_funct3 : funct3Of (encI imm rs1 f3 rd o) = f3 := by
  ext i hi
  simp only [funct3Of, encI, BitVec.getElem_extractLsb', BitVec.getLsbD_append]
  interval_cases i <;> simp

theorem encI_rd : rdOf (encI imm rs1 f3 rd o) = rd := by
  refine congrArg BitVec.toFin (show _ = regBits rd from ?_)
  ext i hi
  simp only [encI, BitVec.getElem_extractLsb', BitVec.getLsbD_append]
  interval_cases i <;> simp

theorem encI_rs1 : rs1Of (encI imm rs1 f3 rd o) = rs1 := by
  refine congrArg BitVec.toFin (show _ = regBits rs1 from ?_)
  ext i hi
  simp only [encI, BitVec.getElem_extractLsb', BitVec.getLsbD_append]
  interval_cases i <;> simp

theorem encI_imm : bitsI (encI imm rs1 f3 rd o) = imm := by
  refine BitVec.eq_of_getLsbD_eq fun i hi => ?_
  simp only [bitsI, encI, BitVec.getLsbD_append, BitVec.getLsbD_extractLsb']
  interval_cases i <;> simp

end

section
variable (imm : BitVec 12) (rs2 rs1 : Reg) (f3 : BitVec 3) (o : BitVec 7)

theorem encS_opcode : opcodeOf (encS imm rs2 rs1 f3 o) = o := by
  ext i hi
  simp only [opcodeOf, encS, BitVec.getElem_extractLsb', BitVec.getLsbD_append]
  interval_cases i <;> simp

theorem encS_funct3 : funct3Of (encS imm rs2 rs1 f3 o) = f3 := by
  ext i hi
  simp only [funct3Of, encS, BitVec.getElem_extractLsb', BitVec.getLsbD_append]
  interval_cases i <;> simp

theorem encS_rs1 : rs1Of (encS imm rs2 rs1 f3 o) = rs1 := by
  refine congrArg BitVec.toFin (show _ = regBits rs1 from ?_)
  ext i hi
  simp only [encS, BitVec.getElem_extractLsb', BitVec.getLsbD_append]
  interval_cases i <;> simp

theorem encS_rs2 : rs2Of (encS imm rs2 rs1 f3 o) = rs2 := by
  refine congrArg BitVec.toFin (show _ = regBits rs2 from ?_)
  ext i hi
  simp only [encS, BitVec.getElem_extractLsb', BitVec.getLsbD_append]
  interval_cases i <;> simp

theorem encS_imm : bitsS (encS imm rs2 rs1 f3 o) = imm := by
  refine BitVec.eq_of_getLsbD_eq fun i hi => ?_
  simp only [bitsS, encS, BitVec.getLsbD_append, BitVec.getLsbD_extractLsb']
  interval_cases i <;> simp

end

section
variable (imm : BitVec 13) (rs2 rs1 : Reg) (f3 : BitVec 3) (o : BitVec 7)

theorem encB_opcode : opcodeOf (encB imm rs2 rs1 f3 o) = o := by
  ext i hi
  simp only [opcodeOf, encB, BitVec.getElem_extractLsb', BitVec.getLsbD_append]
  interval_cases i <;> simp

theorem encB_funct3 : funct3Of (encB imm rs2 rs1 f3 o) = f3 := by
  ext i hi
  simp only [funct3Of, encB, BitVec.getElem_extractLsb', BitVec.getLsbD_append]
  interval_cases i <;> simp

theorem encB_rs1 : rs1Of (encB imm rs2 rs1 f3 o) = rs1 := by
  refine congrArg BitVec.toFin (show _ = regBits rs1 from ?_)
  ext i hi
  simp only [encB, BitVec.getElem_extractLsb', BitVec.getLsbD_append]
  interval_cases i <;> simp

theorem encB_rs2 : rs2Of (encB imm rs2 rs1 f3 o) = rs2 := by
  refine congrArg BitVec.toFin (show _ = regBits rs2 from ?_)
  ext i hi
  simp only [encB, BitVec.getElem_extractLsb', BitVec.getLsbD_append]
  interval_cases i <;> simp

theorem encB_imm (h : imm[0] = false) : bitsB (encB imm rs2 rs1 f3 o) = imm := by
  refine BitVec.eq_of_getLsbD_eq fun i hi => ?_
  simp only [bitsB, encB, BitVec.getLsbD_append, BitVec.getLsbD_extractLsb']
  interval_cases i <;> simp [h]

end

section
variable (imm : BitVec 20) (rd : Reg) (o : BitVec 7)

theorem encU_opcode : opcodeOf (encU imm rd o) = o := by
  ext i hi
  simp only [opcodeOf, encU, BitVec.getElem_extractLsb', BitVec.getLsbD_append]
  interval_cases i <;> simp

theorem encU_rd : rdOf (encU imm rd o) = rd := by
  refine congrArg BitVec.toFin (show _ = regBits rd from ?_)
  ext i hi
  simp only [encU, BitVec.getElem_extractLsb', BitVec.getLsbD_append]
  interval_cases i <;> simp

theorem encU_imm : bitsU (encU imm rd o) = imm := by
  refine BitVec.eq_of_getLsbD_eq fun i hi => ?_
  simp only [bitsU, encU, BitVec.getLsbD_append, BitVec.getLsbD_extractLsb']
  interval_cases i <;> simp

end

section
variable (imm : BitVec 21) (rd : Reg) (o : BitVec 7)

theorem encJ_opcode : opcodeOf (encJ imm rd o) = o := by
  ext i hi
  simp only [opcodeOf, encJ, BitVec.getElem_extractLsb', BitVec.getLsbD_append]
  interval_cases i <;> simp

theorem encJ_rd : rdOf (encJ imm rd o) = rd := by
  refine congrArg BitVec.toFin (show _ = regBits rd from ?_)
  ext i hi
  simp only [encJ, BitVec.getElem_extractLsb', BitVec.getLsbD_append]
  interval_cases i <;> simp

theorem encJ_imm (h : imm[0] = false) : bitsJ (encJ imm rd o) = imm := by
  refine BitVec.eq_of_getLsbD_eq fun i hi => ?_
  simp only [bitsJ, encJ, BitVec.getLsbD_append, BitVec.getLsbD_extractLsb']
  interval_cases i <;> simp [h]

end

/-! ### The parts of an I-type immediate: shift amounts and selectors, FENCE's fields -/

section
variable (sel sh : BitVec 6) (f7 : BitVec 7) (sh5 : BitVec 5) (fm pred succ : BitVec 4) (rs1 : Reg) (f3 : BitVec 3)
  (rd : Reg) (o : BitVec 7)

/-- At XLEN 64 the selector is `inst[31:26]` and the amount `inst[25:20]` (R123). -/
theorem shiftFields_encShift_rv64 : shiftFields .rv64 (encShift sel sh rs1 f3 rd) = (sel ++ 0#1, sh) := by
  refine Prod.ext (BitVec.eq_of_getLsbD_eq fun i hi => ?_) (BitVec.eq_of_getLsbD_eq fun i hi => ?_) <;>
  · simp only [shiftFields, encShift, encI, BitVec.getLsbD_append, BitVec.getLsbD_extractLsb']
    interval_cases i <;> simp

/-- At XLEN 32 the same, for an amount below 32 (R123). -/
theorem shiftFields_encShift_rv32 (h : sh[5] = false) :
    shiftFields .rv32 (encShift sel sh rs1 f3 rd) = (sel ++ 0#1, sh) := by
  refine Prod.ext (BitVec.eq_of_getLsbD_eq fun i hi => ?_) (BitVec.eq_of_getLsbD_eq fun i hi => ?_) <;>
  · simp only [shiftFields, funct7Of, encShift, encI, BitVec.getLsbD_append, BitVec.getLsbD_extractLsb']
    interval_cases i <;> simp [h]

theorem encShiftW_funct7 : funct7Of (encShiftW f7 sh5 rs1 f3 rd) = f7 := by
  refine BitVec.eq_of_getLsbD_eq fun i hi => ?_
  simp only [encShiftW, funct7Of, encI, BitVec.getLsbD_append, BitVec.getLsbD_extractLsb']
  interval_cases i <;> simp

theorem encShiftW_shamt : (encShiftW f7 sh5 rs1 f3 rd).extractLsb' 20 5 = sh5 := by
  refine BitVec.eq_of_getLsbD_eq fun i hi => ?_
  simp only [encShiftW, encI, BitVec.getLsbD_append, BitVec.getLsbD_extractLsb']
  interval_cases i <;> simp

theorem encI_fence_fields :
    (encI (fm ++ pred ++ succ) rs1 f3 rd o).extractLsb' 28 4 = fm
      ∧ (encI (fm ++ pred ++ succ) rs1 f3 rd o).extractLsb' 24 4 = pred
      ∧ (encI (fm ++ pred ++ succ) rs1 f3 rd o).extractLsb' 20 4 = succ := by
  refine ⟨?_, ?_, ?_⟩ <;>
  · refine BitVec.eq_of_getLsbD_eq fun i hi => ?_
    simp only [encI, BitVec.getLsbD_append, BitVec.getLsbD_extractLsb']
    interval_cases i <;> simp

end

end Sys2Proof
end

