-- ==== Sys2Proof/Laws/Memory.lean ====
section
/-! SUPPORT. Memory's laws: what a byte reads after a write, that every operation keeps the canonical form, that two
canonical memories with the same bytes are the same data, and the byte order. -/

namespace Sys2Proof.Machine

/-! ### Cell lists -/

/-- Cells in canonical form: addresses strictly rising, and no cell equal to what an unlisted address reads as. -/
def CellsOk (cs : List Host.Cell) : Prop := cs.Pairwise (fun c d => c.1 < d.1) ∧ ∀ c ∈ cs, c.2 ≠ unlisted

theorem cellsOk_cons {c : Host.Cell} {rest : List Host.Cell} :
    CellsOk (c :: rest) ↔ (∀ d ∈ rest, c.1 < d.1) ∧ c.2 ≠ unlisted ∧ CellsOk rest := by
  simp only [CellsOk, List.pairwise_cons, List.forall_mem_cons]
  tauto

/-- No cell below the first: an address under every listed one reads as unlisted. -/
theorem lookupCell_of_forall_ne {cs : List Host.Cell} {x : Nat} (h : ∀ c ∈ cs, x ≠ c.1) :
    lookupCell cs x = unlisted := by
  induction cs with
  | nil => rfl
  | cons c rest ih =>
    rw [List.forall_mem_cons] at h
    simp [lookupCell, h.1, ih h.2]

theorem mem_consCell {x : Nat} {v : Byte} {rest : List Host.Cell} {d : Host.Cell} (h : d ∈ consCell x v rest) :
    d = (x, v) ∨ d ∈ rest := by
  unfold consCell at h
  split at h
  · exact .inr h
  · simpa using h

theorem mem_insertCell {cs : List Host.Cell} {x : Nat} {v : Byte} {d : Host.Cell} (h : d ∈ insertCell cs x v) :
    d = (x, v) ∨ d ∈ cs := by
  induction cs with
  | nil => exact mem_consCell h
  | cons c rest ih =>
    unfold insertCell at h
    split at h
    · exact mem_consCell h
    · split at h
      · exact (mem_consCell h).imp id (List.mem_cons_of_mem _)
      · rcases List.mem_cons.1 h with rfl | h
        · exact .inr List.mem_cons_self
        · exact (ih h).imp id (List.mem_cons_of_mem _)

theorem consCell_ok {x : Nat} {v : Byte} {rest : List Host.Cell} (hr : CellsOk rest) (hx : ∀ d ∈ rest, x < d.1) :
    CellsOk (consCell x v rest) := by
  unfold consCell
  split
  · exact hr
  · exact cellsOk_cons.2 ⟨hx, ‹_›, hr⟩

theorem insertCell_ok {cs : List Host.Cell} (x : Nat) (v : Byte) (h : CellsOk cs) : CellsOk (insertCell cs x v) := by
  induction cs with
  | nil => exact consCell_ok h (by simp)
  | cons c rest ih =>
    obtain ⟨hlt, hne, hr⟩ := cellsOk_cons.1 h
    unfold insertCell
    split
    · rename_i hx
      refine consCell_ok h ?_
      intro d hd
      rcases List.mem_cons.1 hd with rfl | hd
      · exact hx
      · exact lt_trans hx (hlt d hd)
    · split
      · rename_i hx
        exact consCell_ok hr (hx ▸ hlt)
      · rename_i h1 h2
        refine cellsOk_cons.2 ⟨?_, hne, ih hr⟩
        intro d hd
        rcases mem_insertCell hd with rfl | hd
        · simp only; omega
        · exact hlt d hd

theorem lookupCell_consCell {x : Nat} {v : Byte} {rest : List Host.Cell} (hx : ∀ d ∈ rest, x < d.1) (y : Nat) :
    lookupCell (consCell x v rest) y = if y = x then v else lookupCell rest y := by
  unfold consCell
  split
  · rename_i hv
    split
    · rename_i hy
      subst hy
      rw [hv]
      exact lookupCell_of_forall_ne fun c hc => (hx c hc).ne
    · rfl
  · rfl

/-- Reading after one byte is written: the byte at its address, and every other as before. -/
theorem lookupCell_insertCell {cs : List Host.Cell} (h : CellsOk cs) (x : Nat) (v : Byte) (y : Nat) :
    lookupCell (insertCell cs x v) y = if y = x then v else lookupCell cs y := by
  induction cs with
  | nil => exact lookupCell_consCell (by simp) y
  | cons c rest ih =>
    obtain ⟨hlt, _, hr⟩ := cellsOk_cons.1 h
    unfold insertCell
    split
    · rename_i hx
      refine lookupCell_consCell ?_ y
      intro d hd
      rcases List.mem_cons.1 hd with rfl | hd
      · exact hx
      · exact lt_trans hx (hlt d hd)
    · split
      · rename_i hx
        rw [lookupCell_consCell (hx ▸ hlt)]
        by_cases hy : y = x
        · simp [hy]
        · have hc : ¬ y = c.1 := by omega
          simp [hy, lookupCell, hc]
      · rename_i h1 h2
        simp only [lookupCell, ih hr]
        by_cases hy : y = c.1
        · have : ¬ c.1 = x := by omega
          simp [hy, this]
        · simp [hy]

theorem insertBytes_ok {cs : List Host.Cell} (bs : List Byte) (a : Nat) (h : CellsOk cs) : CellsOk (insertBytes cs a bs) := by
  induction bs generalizing cs a with
  | nil => exact h
  | cons b bs ih => exact ih (a + 1) (insertCell_ok a b h)

theorem mem_insertBytes {cs : List Host.Cell} {bs : List Byte} {a : Nat} {d : Host.Cell}
    (h : d ∈ insertBytes cs a bs) : d ∈ cs ∨ (a ≤ d.1 ∧ d.1 < a + bs.length) := by
  induction bs generalizing cs a with
  | nil => exact .inl h
  | cons b bs ih =>
    rcases ih h with h | h
    · rcases mem_insertCell h with rfl | h
      · exact .inr ⟨le_refl _, by simp⟩
      · exact .inl h
    · exact .inr ⟨by omega, by simp only [List.length_cons]; omega⟩

/-- Reading after a run of bytes is stored. -/
theorem lookupCell_insertBytes {cs : List Host.Cell} (h : CellsOk cs) (bs : List Byte) (a y : Nat) :
    lookupCell (insertBytes cs a bs) y = if a ≤ y then bs.getD (y - a) (lookupCell cs y) else lookupCell cs y := by
  induction bs generalizing cs a with
  | nil => simp [insertBytes]
  | cons b bs ih =>
    simp only [insertBytes]
    rw [ih (insertCell_ok a b h), lookupCell_insertCell h]
    rcases lt_trichotomy a y with hlt | heq | hgt
    · have e : y - a = (y - (a + 1)) + 1 := by omega
      have h1 : a + 1 ≤ y := hlt
      have h2 : a ≤ y := hlt.le
      have h3 : ¬ y = a := by omega
      simp [h1, h2, h3, e]
    · subst heq
      simp
    · have h1 : ¬ a + 1 ≤ y := by omega
      have h2 : ¬ a ≤ y := by omega
      have h3 : ¬ y = a := by omega
      simp [h1, h2, h3]

/-- Two canonical cell lists that read the same everywhere are the same list. -/
theorem cells_ext {cs ds : List Host.Cell} (hc : CellsOk cs) (hd : CellsOk ds)
    (h : ∀ x, lookupCell cs x = lookupCell ds x) : cs = ds := by
  induction cs generalizing ds with
  | nil =>
    cases ds with
    | nil => rfl
    | cons d rest =>
      have := h d.1
      simp only [lookupCell, if_true] at this
      exact absurd this.symm (cellsOk_cons.1 hd).2.1
  | cons c crest ih =>
    cases ds with
    | nil =>
      have := h c.1
      simp only [lookupCell, if_true] at this
      exact absurd this (cellsOk_cons.1 hc).2.1
    | cons d drest =>
      obtain ⟨hcl, hcn, hcr⟩ := cellsOk_cons.1 hc
      obtain ⟨hdl, hdn, hdr⟩ := cellsOk_cons.1 hd
      have hfst : c.1 = d.1 := by
        rcases lt_trichotomy c.1 d.1 with hlt | heq | hgt
        · exfalso
          have e := h c.1
          rw [show lookupCell (d :: drest) c.1 = unlisted from
            lookupCell_of_forall_ne (by
              intro z hz
              rcases List.mem_cons.1 hz with rfl | hz
              · exact hlt.ne
              · exact (hlt.trans (hdl z hz)).ne)] at e
          simp only [lookupCell, if_true] at e
          exact hcn e
        · exact heq
        · exfalso
          have e := h d.1
          rw [show lookupCell (c :: crest) d.1 = unlisted from
            lookupCell_of_forall_ne (by
              intro z hz
              rcases List.mem_cons.1 hz with rfl | hz
              · exact hgt.ne
              · exact (hgt.trans (hcl z hz)).ne)] at e
          simp only [lookupCell, if_true] at e
          exact hdn e.symm
      have hsnd : c.2 = d.2 := by
        have e := h c.1
        simp only [lookupCell, if_true, ← hfst] at e
        exact e
      have hcd : c = d := Prod.ext hfst hsnd
      subst hcd
      congr 1
      refine ih hcr hdr fun x => ?_
      have e := h x
      simp only [lookupCell] at e
      by_cases hx : x = c.1
      · rw [lookupCell_of_forall_ne (fun z hz => by rw [hx]; exact (hcl z hz).ne),
          lookupCell_of_forall_ne (fun z hz => by rw [hx]; exact (hdl z hz).ne)]
      · simpa [hx] using e

/-! ### The memory image -/

theorem Memory.wf_iff (m : Memory) :
    m.wf = true ↔ CellsOk m.cells ∧ ∀ c ∈ m.cells, m.base ≤ c.1 ∧ c.1 < m.base + m.size := by
  simp only [Memory.wf, CellsOk, Bool.and_eq_true, decide_eq_true_eq, List.all_eq_true, bne_iff_ne]
  constructor
  · rintro ⟨h1, h2⟩
    exact ⟨⟨h1, fun c hc => (h2 c hc).2⟩, fun c hc => (h2 c hc).1⟩
  · rintro ⟨⟨h1, h2⟩, h3⟩
    exact ⟨h1, fun c hc => ⟨h3 c hc, h2 c hc⟩⟩

theorem Memory.inBounds_iff (m : Memory) (a n : Nat) :
    m.inBounds a n = true ↔ m.base ≤ a ∧ a + n ≤ m.base + m.size := by
  simp [Memory.inBounds]

@[simp] theorem Memory.put_base (m : Memory) (a : Nat) (bs : List Byte) : (m.put a bs).base = m.base := rfl
@[simp] theorem Memory.put_size (m : Memory) (a : Nat) (bs : List Byte) : (m.put a bs).size = m.size := rfl

theorem Memory.put_byte {m : Memory} (h : m.wf = true) (a : Nat) (bs : List Byte) (y : Nat) :
    (m.put a bs).byte y = if a ≤ y then bs.getD (y - a) (m.byte y) else m.byte y :=
  lookupCell_insertBytes (m.wf_iff.1 h).1 bs a y

/-- Bytes put inside the window keep the canonical form. -/
theorem Memory.put_wf {m : Memory} (h : m.wf = true) {a : Nat} {bs : List Byte} (hb : m.inBounds a bs.length = true) :
    (m.put a bs).wf = true := by
  obtain ⟨hc, hw⟩ := m.wf_iff.1 h
  obtain ⟨h1, h2⟩ := (m.inBounds_iff _ _).1 hb
  refine (Memory.wf_iff _).2 ⟨insertBytes_ok bs a hc, fun c hcm => ?_⟩
  rcases mem_insertBytes hcm with hcm | ⟨h3, h4⟩
  · exact hw c hcm
  · simp only [Memory.put_base, Memory.put_size]
    omega

theorem leBytes_length (n v : Nat) : (leBytes n v).length = n := by
  induction n generalizing v with
  | zero => rfl
  | succ n ih => simp [leBytes, ih]

/-- A store keeps the window and the canonical form. -/
theorem Memory.write_wf {m m' : Memory} {a n : Nat} {v : BitVec (8 * n)} (h : m.wf = true)
    (hw : m.write a n v = some m') : m'.wf = true ∧ m'.base = m.base ∧ m'.size = m.size := by
  unfold Memory.write at hw
  split at hw
  · cases hw
    exact ⟨Memory.put_wf h (by rw [leBytes_length]; assumption), rfl, rfl⟩
  · cases hw

/-- A load is refused exactly outside the window (R72, R74). -/
theorem Memory.read_isSome (m : Memory) (a n : Nat) : (m.read a n).isSome = m.inBounds a n := by
  unfold Memory.read; split <;> simp_all

/-- A store is refused exactly outside the window (R72, R75). -/
theorem Memory.write_isSome (m : Memory) (a n : Nat) (v : BitVec (8 * n)) :
    (m.write a n v).isSome = m.inBounds a n := by
  unfold Memory.write; split <;> simp_all

theorem Memory.load_wf {m : Memory} (h : m.wf = true) (a : Nat) (bs : List Byte) : (m.load a bs).wf = true := by
  unfold Memory.load
  split
  · exact Memory.put_wf h ‹_›
  · exact h

@[simp] theorem Memory.load_base (m : Memory) (a : Nat) (bs : List Byte) : (m.load a bs).base = m.base := by
  unfold Memory.load; split <;> rfl
@[simp] theorem Memory.load_size (m : Memory) (a : Nat) (bs : List Byte) : (m.load a bs).size = m.size := by
  unfold Memory.load; split <;> rfl

theorem Memory.zeroed_wf (base size : Nat) : (Memory.zeroed base size).wf = true := by simp [Memory.zeroed, Memory.wf]

/-! ### The byte order -/

theorem Memory.bytes_length (m : Memory) (a n : Nat) : (m.bytes a n).length = n := by
  induction n generalizing a with
  | zero => rfl
  | succ n ih => simp [Memory.bytes, ih]

theorem Memory.bytes_getElem (m : Memory) (a n i : Nat) (h : i < (m.bytes a n).length) :
    (m.bytes a n)[i] = m.byte (a + i) := by
  induction n generalizing a i with
  | zero => simp [Memory.bytes] at h
  | succ n ih =>
    cases i with
    | zero => rfl
    | succ i =>
      simp only [Memory.bytes, List.getElem_cons_succ]
      rw [ih]
      congr 1
      omega

theorem leValue_lt (bs : List Byte) : leValue bs < 2 ^ (8 * bs.length) := by
  induction bs with
  | nil => simp [leValue]
  | cons b bs ih =>
    have hb := b.isLt
    rw [leValue, List.length_cons, Nat.mul_add, Nat.pow_add]
    omega

/-- Bit `j` of a number read from bytes is bit `j % 8` of byte `j / 8`. -/
theorem leValue_testBit (bs : List Byte) (j : Nat) :
    (leValue bs).testBit j = (bs.getD (j / 8) 0#8).getLsbD (j % 8) := by
  induction bs generalizing j with
  | nil => simp [leValue]
  | cons b bs ih =>
    rw [leValue, show (256 : Nat) = 2 ^ 8 from rfl, Nat.add_comm, Nat.testBit_two_pow_mul_add _ b.isLt]
    by_cases h : j < 8
    · have h1 : j / 8 = 0 := by omega
      have h2 : j % 8 = j := by omega
      simp [h, h1, h2, BitVec.getLsbD]
    · have h1 : j / 8 = (j - 8) / 8 + 1 := by omega
      have h2 : j % 8 = (j - 8) % 8 := by omega
      simp [h, ih, h1, h2]

/-- Byte `i` of a number written out is `v[8i+7 : 8i]` (R75). -/
theorem leBytes_getElem (n v i : Nat) (h : i < (leBytes n v).length) :
    (leBytes n v)[i] = BitVec.ofNat 8 (v / 2 ^ (8 * i)) := by
  induction n generalizing v i with
  | zero => simp [leBytes] at h
  | succ n ih =>
    cases i with
    | zero => simp [leBytes]
    | succ i =>
      simp only [leBytes, List.getElem_cons_succ]
      rw [ih, Nat.div_div_eq_div_mul, Nat.mul_add, Nat.pow_add]
      congr 2
      rw [Nat.mul_comm]

/-- Writing a number out and reading it back gives it modulo the width (R214). -/
theorem leValue_leBytes (n v : Nat) : leValue (leBytes n v) = v % 2 ^ (8 * n) := by
  induction n generalizing v with
  | zero => simp [leBytes, leValue, Nat.mod_one]
  | succ n ih =>
    rw [leBytes, leValue, ih, BitVec.toNat_ofNat, show 8 * (n + 1) = 8 + 8 * n by omega, Nat.pow_add, Nat.mod_mul]

end Sys2Proof.Machine
end

