-- ==== Sys2Proof/Laws/State.lean ====
section
/-! SUPPORT. One lemma per field per update of the hart, all by definition, and the register file's laws (R32, R33). -/

namespace Sys2Proof.Machine

variable {k : XLen} (m : Hart k)

@[simp] theorem Hart.setPc_x (a : Word k) : (m.setPc a).x = m.x := rfl
@[simp] theorem Hart.setPc_pc (a : Word k) : (m.setPc a).pc = a := rfl
@[simp] theorem Hart.setPc_mem (a : Word k) : (m.setPc a).mem = m.mem := rfl
@[simp] theorem Hart.setPc_run (a : Word k) : (m.setPc a).run = m.run := rfl

@[simp] theorem Hart.setMem_x (mem : Memory) : (m.setMem mem).x = m.x := rfl
@[simp] theorem Hart.setMem_pc (mem : Memory) : (m.setMem mem).pc = m.pc := rfl
@[simp] theorem Hart.setMem_mem (mem : Memory) : (m.setMem mem).mem = mem := rfl
@[simp] theorem Hart.setMem_run (mem : Memory) : (m.setMem mem).run = m.run := rfl

@[simp] theorem Hart.halt_x (f : Fault) : (m.halt f).x = m.x := rfl
@[simp] theorem Hart.halt_pc (f : Fault) : (m.halt f).pc = m.pc := rfl
@[simp] theorem Hart.halt_mem (f : Fault) : (m.halt f).mem = m.mem := rfl
@[simp] theorem Hart.halt_run (f : Fault) : (m.halt f).run = .halted f := rfl

@[simp] theorem Hart.setReg_pc (r : Reg) (v : Word k) : (m.setReg r v).pc = m.pc := by
  unfold Hart.setReg; split <;> rfl
@[simp] theorem Hart.setReg_mem (r : Reg) (v : Word k) : (m.setReg r v).mem = m.mem := by
  unfold Hart.setReg; split <;> rfl
@[simp] theorem Hart.setReg_run (r : Reg) (v : Word k) : (m.setReg r v).run = m.run := by
  unfold Hart.setReg; split <;> rfl

@[simp] theorem Hart.placeWord_x (w : BitVec 32) : (m.placeWord w).x = m.x := rfl
@[simp] theorem Hart.placeWord_pc (w : BitVec 32) : (m.placeWord w).pc = m.pc := rfl
@[simp] theorem Hart.placeWord_run (w : BitVec 32) : (m.placeWord w).run = .running := rfl

@[simp] theorem Hart.setPc_reg (a : Word k) (r : Reg) : (m.setPc a).reg r = m.reg r := rfl
@[simp] theorem Hart.setMem_reg (mem : Memory) (r : Reg) : (m.setMem mem).reg r = m.reg r := rfl
@[simp] theorem Hart.halt_reg (f : Fault) (r : Reg) : (m.halt f).reg r = m.reg r := rfl

/-- What a register reads after a register write: the value written, unless the register is x0. -/
theorem Hart.setReg_reg (r q : Reg) (v : Word k) :
    (m.setReg r v).reg q = if r = q ∧ q ≠ 0 then v else m.reg q := by
  unfold Hart.setReg Hart.reg
  by_cases hr : r = 0
  · by_cases hq : q = 0
    · simp [hr, hq]
    · have : ¬ (0 : Reg) = q := fun e => hq e.symm
      simp [hr, this]
  · by_cases hq : q = 0
    · simp [hr, hq]
    · by_cases h : r = q
      · simp [h, hq]
      · have h2 : ¬ r.val = q.val := fun e => h (Fin.ext e)
        simp [hr, hq, h, h2]

/-- A register write leaves x0's slot as it is. -/
theorem Hart.setReg_slot_zero (r : Reg) (v : Word k) : (m.setReg r v).x[0] = m.x[0] := by
  unfold Hart.setReg
  split
  · rfl
  · rename_i h
    have : r.val ≠ 0 := fun e => h (Fin.ext e)
    simp [this]

end Sys2Proof.Machine
end

