-- ==== Sys2Proof/Laws/Ops.lean ====
section
/-! SUPPORT. One lemma for each shared operation that says once everything it can do. -/

namespace Sys2Proof.Machine

variable {k : XLen}

/-! ### The bus and the load-store unit -/

/-- An access inside the window reads; bit `j` of the value is bit `j % 8` of the byte `j / 8` above the address (R74). -/
theorem Memory.read_of_inBounds {m : Memory} {a n : Nat} (h : m.inBounds a n = true) :
    ∃ v, m.read a n = some v ∧ ∀ j < 8 * n, v.getLsbD j = (m.byte (a + j / 8)).getLsbD (j % 8) := by
  refine ⟨_, by rw [Memory.read, if_pos h], fun j hj => ?_⟩
  have hl : j / 8 < (m.bytes a n).length := by rw [Memory.bytes_length]; omega
  rw [BitVec.getLsbD_ofNat, leValue_testBit, List.getD_eq_getElem _ _ hl, Memory.bytes_getElem]
  simp [hj]

theorem Memory.read_of_not_inBounds {m : Memory} {a n : Nat} (h : m.inBounds a n = false) : m.read a n = none := by
  simp [Memory.read, h]

theorem Memory.write_of_inBounds {m : Memory} {a n : Nat} {v : BitVec (8 * n)} (h : m.inBounds a n = true) :
    m.write a n v = some (m.put a (leBytes n v.toNat)) := by
  simp [Memory.write, h]

theorem Memory.write_of_not_inBounds {m : Memory} {a n : Nat} {v : BitVec (8 * n)} (h : m.inBounds a n = false) :
    m.write a n v = none := by
  simp [Memory.write, h]

/-- Every byte after a store: `v[8i+7 : 8i]` at the `i`-th stored address, as before elsewhere (R75). -/
theorem Memory.write_byte {m m' : Memory} {a n : Nat} {v : BitVec (8 * n)} (h : m.wf = true)
    (hw : m.write a n v = some m') (y : Nat) :
    m'.byte y = if a ≤ y ∧ y < a + n then v.extractLsb' (8 * (y - a)) 8 else m.byte y := by
  unfold Memory.write at hw
  split at hw
  · cases hw
    rw [Memory.put_byte h]
    by_cases h1 : a ≤ y
    · by_cases h2 : y < a + n
      · have hl : y - a < (leBytes n v.toNat).length := by rw [leBytes_length]; omega
        rw [if_pos h1, if_pos ⟨h1, h2⟩, List.getD_eq_getElem _ _ hl, leBytes_getElem]
        apply BitVec.eq_of_toNat_eq
        simp [Nat.shiftRight_eq_div_pow]
      · have hl : (leBytes n v.toNat).length ≤ y - a := by rw [leBytes_length]; omega
        have h3 : ¬ (a ≤ y ∧ y < a + n) := by omega
        rw [if_pos h1, if_neg h3, List.getD_eq_default _ _ hl]
    · have h3 : ¬ (a ≤ y ∧ y < a + n) := by omega
      rw [if_neg h1, if_neg h3]
  · cases hw

/-- A load reads or, outside the window, does not (R78). -/
theorem lsuLoad_isSome (mem : Memory) (addr : Word k) (n : Nat) (signed : Bool) :
    (lsuLoad mem addr n signed).isSome = mem.inBounds addr.toNat n := by
  rw [← Memory.read_isSome]
  unfold lsuLoad
  split <;> simp_all

/-- A store writes or, outside the window, does not (R79). -/
theorem lsuStore_isSome (mem : Memory) (addr : Word k) (n : Nat) (data : Word k) :
    (lsuStore mem addr n data).isSome = mem.inBounds addr.toNat n := Memory.write_isSome ..

/-- What a store leaves in memory (R79, R75): the window as it was, and the low bytes of the data at the address. -/
theorem lsuStore_byte {mem mem' : Memory} {addr data : Word k} {n : Nat} (h : mem.wf = true)
    (hs : lsuStore mem addr n data = some mem') (y : Nat) :
    mem'.byte y = if addr.toNat ≤ y ∧ y < addr.toNat + n then data.extractLsb' (8 * (y - addr.toNat)) 8
      else mem.byte y := by
  rw [Memory.write_byte h hs]
  split
  · refine BitVec.eq_of_getLsbD_eq fun i hi => ?_
    have : 8 * (y - addr.toNat) + i < 8 * n := by omega
    simp [this]
  · rfl

/-! ### Ends of a step -/

@[simp] theorem onlyAt64_rv64 (m : Hart .rv64) (o : Host.Outcome State Fault Refusal) : onlyAt64 ⟨.rv64, m⟩ o = o := rfl
@[simp] theorem onlyAt64_rv32 (m : Hart .rv32) (o : Host.Outcome State Fault Refusal) :
    onlyAt64 ⟨.rv32, m⟩ o = raise .illegalInstruction ⟨.rv32, m⟩ := rfl

/-- A load writes what the LSU read, or raises OutOfBounds. -/
theorem loadInto_cases (n : Nat) (signed : Bool) (rd rs1 : Reg) (imm : BitVec 12) (s : State) :
    (∃ v, lsuLoad s.hart.mem (s.hart.loadAddr rs1 imm) n signed = some v
        ∧ loadInto n signed rd rs1 imm s = writeBack rd s v)
      ∨ (lsuLoad s.hart.mem (s.hart.loadAddr rs1 imm) n signed = none
        ∧ loadInto n signed rd rs1 imm s = raise .outOfBounds s) := by
  unfold loadInto
  cases lsuLoad s.hart.mem (s.hart.loadAddr rs1 imm) n signed with
  | none => exact .inr ⟨rfl, rfl⟩
  | some v => exact .inl ⟨v, rfl, rfl⟩

/-- A store commits the LSU's memory and the next pc, or raises OutOfBounds. -/
theorem storeFrom_cases (n : Nat) (rs1 rs2 : Reg) (imm : BitVec 12) (s : State) :
    (∃ mem, lsuStore s.hart.mem (s.hart.storeAddr rs1 imm) n (s.hart.reg rs2) = some mem
        ∧ storeFrom n rs1 rs2 imm s = retire s ((s.hart.setMem mem).setPc s.hart.nextPc))
      ∨ (lsuStore s.hart.mem (s.hart.storeAddr rs1 imm) n (s.hart.reg rs2) = none
        ∧ storeFrom n rs1 rs2 imm s = raise .outOfBounds s) := by
  unfold storeFrom
  cases lsuStore s.hart.mem (s.hart.storeAddr rs1 imm) n (s.hart.reg rs2) with
  | none => exact .inr ⟨rfl, rfl⟩
  | some mem => exact .inl ⟨mem, rfl, rfl⟩

/-- A branch sets the pc to its target or to the next instruction, and nothing else (R163). -/
theorem branchIf_eq (c : Cond) (rs1 rs2 : Reg) (imm : BitVec 13) (s : State) :
    branchIf c rs1 rs2 imm s = retire s (s.hart.setPc
      (if c.holds (s.hart.reg rs1) (s.hart.reg rs2) then s.hart.branchTarget imm else s.hart.nextPc)) := by
  unfold branchIf advance
  split <;> rfl

/-- A shift by an immediate writes its result, or, where its amount has no place in the word, is Illegal (R133). -/
theorem aluShamt_cases (op : AluOp) (rd rs1 : Reg) (shamt : BitVec 6) (s : State) :
    (shamtFits s.xlen shamt = true
        ∧ aluShamt op rd rs1 shamt s = writeBack rd s (alu op (s.hart.reg rs1) (zext s.xlen shamt)))
      ∨ (shamtFits s.xlen shamt = false ∧ aluShamt op rd rs1 shamt s = raise .illegalInstruction s) := by
  unfold aluShamt
  cases shamtFits s.xlen shamt
  · exact .inr ⟨rfl, rfl⟩
  · exact .inl ⟨rfl, rfl⟩

/-- The bits of a JALR target: those of the sum, but for bit 0, which is clear (R166). -/
theorem Hart.jalrTarget_getLsbD (m : Hart k) (rs1 : Reg) (imm : BitVec 12) (j : Nat) (hj : j < k.bits) :
    (m.jalrTarget rs1 imm).getLsbD j = (decide (j ≠ 0) && (m.reg rs1 + immI k imm).getLsbD j) := by
  have := k.bits_pos
  simp only [Hart.jalrTarget, BitVec.getLsbD_and, BitVec.getLsbD_not, BitVec.getLsbD_one]
  by_cases h0 : j = 0 <;> simp [h0, hj, this]

/-- What a fetch gives, in the order of its checks (R80, R161). -/
theorem Hart.fetch_cases (m : Hart k) :
    (m.pc.toNat % 4 ≠ 0 ∧ m.fetch = .bad .misaligned)
      ∨ (m.pc.toNat % 4 = 0 ∧ m.mem.read m.pc.toNat 4 = none ∧ m.fetch = .bad .outOfBounds)
      ∨ (∃ w, m.pc.toNat % 4 = 0 ∧ m.mem.read m.pc.toNat 4 = some w ∧ m.fetch = .word w) := by
  unfold Hart.fetch
  by_cases h : m.pc.toNat % 4 = 0
  · cases hr : m.mem.read m.pc.toNat 4 with
    | none => exact .inr (.inl ⟨h, rfl, by simp [h]⟩)
    | some w => exact .inr (.inr ⟨w, h, rfl, by simp [h]⟩)
  · exact .inl ⟨h, by simp [h]⟩

/-- The amount of a shift is its operand modulo XLEN (R123, R168). -/
theorem shiftAmount_eq (b : Word k) : shiftAmount b = b.toNat % k.bits := by
  rw [shiftAmount, BitVec.extractLsb'_toNat, Nat.shiftRight_zero, ← XLen.bits_eq_two_pow]

/-- The amount of a W shift is its operand modulo 32 (R123, R170). -/
theorem shiftAmountW_eq (b : Word k) : shiftAmountW b = b.toNat % 32 := by
  rw [shiftAmountW, BitVec.extractLsb'_toNat, Nat.shiftRight_zero]

end Sys2Proof.Machine
end

