-- ==== Sys2Proof/Laws/PerInstr.lean ====
section
/-! SUPPORT. A fact about every instruction, one lemma per constructor: the low two bits of its word are 11 (R110, R125). -/

namespace Sys2Proof.Laws.EncodedLow

def Statement (i : Instr) : Prop := (encode i).extractLsb' 0 2 = 0b11#2

theorem lb (rd rs1 : Reg) (imm : BitVec 12) : Statement (.lb rd rs1 imm) := low_of_opcode (encI_opcode ..) (by decide)
theorem lh (rd rs1 : Reg) (imm : BitVec 12) : Statement (.lh rd rs1 imm) := low_of_opcode (encI_opcode ..) (by decide)
theorem lw (rd rs1 : Reg) (imm : BitVec 12) : Statement (.lw rd rs1 imm) := low_of_opcode (encI_opcode ..) (by decide)
theorem ld (rd rs1 : Reg) (imm : BitVec 12) : Statement (.ld rd rs1 imm) := low_of_opcode (encI_opcode ..) (by decide)
theorem lbu (rd rs1 : Reg) (imm : BitVec 12) : Statement (.lbu rd rs1 imm) := low_of_opcode (encI_opcode ..) (by decide)
theorem lhu (rd rs1 : Reg) (imm : BitVec 12) : Statement (.lhu rd rs1 imm) := low_of_opcode (encI_opcode ..) (by decide)
theorem sb (rs1 rs2 : Reg) (imm : BitVec 12) : Statement (.sb rs1 rs2 imm) := low_of_opcode (encS_opcode ..) (by decide)
theorem sh (rs1 rs2 : Reg) (imm : BitVec 12) : Statement (.sh rs1 rs2 imm) := low_of_opcode (encS_opcode ..) (by decide)
theorem sw (rs1 rs2 : Reg) (imm : BitVec 12) : Statement (.sw rs1 rs2 imm) := low_of_opcode (encS_opcode ..) (by decide)
theorem sd (rs1 rs2 : Reg) (imm : BitVec 12) : Statement (.sd rs1 rs2 imm) := low_of_opcode (encS_opcode ..) (by decide)
theorem addi (rd rs1 : Reg) (imm : BitVec 12) : Statement (.addi rd rs1 imm) := low_of_opcode (encI_opcode ..) (by decide)
theorem slti (rd rs1 : Reg) (imm : BitVec 12) : Statement (.slti rd rs1 imm) := low_of_opcode (encI_opcode ..) (by decide)
theorem sltiu (rd rs1 : Reg) (imm : BitVec 12) : Statement (.sltiu rd rs1 imm) := low_of_opcode (encI_opcode ..) (by decide)
theorem xori (rd rs1 : Reg) (imm : BitVec 12) : Statement (.xori rd rs1 imm) := low_of_opcode (encI_opcode ..) (by decide)
theorem ori (rd rs1 : Reg) (imm : BitVec 12) : Statement (.ori rd rs1 imm) := low_of_opcode (encI_opcode ..) (by decide)
theorem andi (rd rs1 : Reg) (imm : BitVec 12) : Statement (.andi rd rs1 imm) := low_of_opcode (encI_opcode ..) (by decide)
theorem slli (rd rs1 : Reg) (shamt : BitVec 6) : Statement (.slli rd rs1 shamt) := low_of_opcode (encI_opcode ..) (by decide)
theorem srli (rd rs1 : Reg) (shamt : BitVec 6) : Statement (.srli rd rs1 shamt) := low_of_opcode (encI_opcode ..) (by decide)
theorem srai (rd rs1 : Reg) (shamt : BitVec 6) : Statement (.srai rd rs1 shamt) := low_of_opcode (encI_opcode ..) (by decide)
theorem addiw (rd rs1 : Reg) (imm : BitVec 12) : Statement (.addiw rd rs1 imm) := low_of_opcode (encI_opcode ..) (by decide)
theorem slliw (rd rs1 : Reg) (shamt : BitVec 5) : Statement (.slliw rd rs1 shamt) := low_of_opcode (encI_opcode ..) (by decide)
theorem srliw (rd rs1 : Reg) (shamt : BitVec 5) : Statement (.srliw rd rs1 shamt) := low_of_opcode (encI_opcode ..) (by decide)
theorem sraiw (rd rs1 : Reg) (shamt : BitVec 5) : Statement (.sraiw rd rs1 shamt) := low_of_opcode (encI_opcode ..) (by decide)
theorem add (rd rs1 rs2 : Reg) : Statement (.add rd rs1 rs2) := low_of_opcode (encR_opcode ..) (by decide)
theorem sub (rd rs1 rs2 : Reg) : Statement (.sub rd rs1 rs2) := low_of_opcode (encR_opcode ..) (by decide)
theorem sll (rd rs1 rs2 : Reg) : Statement (.sll rd rs1 rs2) := low_of_opcode (encR_opcode ..) (by decide)
theorem slt (rd rs1 rs2 : Reg) : Statement (.slt rd rs1 rs2) := low_of_opcode (encR_opcode ..) (by decide)
theorem sltu (rd rs1 rs2 : Reg) : Statement (.sltu rd rs1 rs2) := low_of_opcode (encR_opcode ..) (by decide)
theorem xor (rd rs1 rs2 : Reg) : Statement (.xor rd rs1 rs2) := low_of_opcode (encR_opcode ..) (by decide)
theorem srl (rd rs1 rs2 : Reg) : Statement (.srl rd rs1 rs2) := low_of_opcode (encR_opcode ..) (by decide)
theorem sra (rd rs1 rs2 : Reg) : Statement (.sra rd rs1 rs2) := low_of_opcode (encR_opcode ..) (by decide)
theorem or (rd rs1 rs2 : Reg) : Statement (.or rd rs1 rs2) := low_of_opcode (encR_opcode ..) (by decide)
theorem and (rd rs1 rs2 : Reg) : Statement (.and rd rs1 rs2) := low_of_opcode (encR_opcode ..) (by decide)
theorem addw (rd rs1 rs2 : Reg) : Statement (.addw rd rs1 rs2) := low_of_opcode (encR_opcode ..) (by decide)
theorem subw (rd rs1 rs2 : Reg) : Statement (.subw rd rs1 rs2) := low_of_opcode (encR_opcode ..) (by decide)
theorem sllw (rd rs1 rs2 : Reg) : Statement (.sllw rd rs1 rs2) := low_of_opcode (encR_opcode ..) (by decide)
theorem srlw (rd rs1 rs2 : Reg) : Statement (.srlw rd rs1 rs2) := low_of_opcode (encR_opcode ..) (by decide)
theorem sraw (rd rs1 rs2 : Reg) : Statement (.sraw rd rs1 rs2) := low_of_opcode (encR_opcode ..) (by decide)
theorem lui (rd : Reg) (imm : BitVec 20) : Statement (.lui rd imm) := low_of_opcode (encU_opcode ..) (by decide)
theorem auipc (rd : Reg) (imm : BitVec 20) : Statement (.auipc rd imm) := low_of_opcode (encU_opcode ..) (by decide)
theorem beq (rs1 rs2 : Reg) (imm : BitVec 13) : Statement (.beq rs1 rs2 imm) := low_of_opcode (encB_opcode ..) (by decide)
theorem bne (rs1 rs2 : Reg) (imm : BitVec 13) : Statement (.bne rs1 rs2 imm) := low_of_opcode (encB_opcode ..) (by decide)
theorem blt (rs1 rs2 : Reg) (imm : BitVec 13) : Statement (.blt rs1 rs2 imm) := low_of_opcode (encB_opcode ..) (by decide)
theorem bge (rs1 rs2 : Reg) (imm : BitVec 13) : Statement (.bge rs1 rs2 imm) := low_of_opcode (encB_opcode ..) (by decide)
theorem bltu (rs1 rs2 : Reg) (imm : BitVec 13) : Statement (.bltu rs1 rs2 imm) := low_of_opcode (encB_opcode ..) (by decide)
theorem bgeu (rs1 rs2 : Reg) (imm : BitVec 13) : Statement (.bgeu rs1 rs2 imm) := low_of_opcode (encB_opcode ..) (by decide)
theorem jalr (rd rs1 : Reg) (imm : BitVec 12) : Statement (.jalr rd rs1 imm) := low_of_opcode (encI_opcode ..) (by decide)
theorem jal (rd : Reg) (imm : BitVec 21) : Statement (.jal rd imm) := low_of_opcode (encJ_opcode ..) (by decide)
theorem ecall : Statement (.ecall) := by unfold Statement encode; decide
theorem ebreak : Statement (.ebreak) := by unfold Statement encode; decide
theorem fence (fm pred succ : BitVec 4) (rs1 rd : Reg) : Statement (.fence fm pred succ rs1 rd) := low_of_opcode (encI_opcode ..) (by decide)

end Sys2Proof.Laws.EncodedLow
end

