-- ==== Sys2Proof/Laws/Reset.lean ====
section
/-! SUPPORT. Reset memory, and an instruction placed at the pc. -/

namespace Sys2Proof.Machine

/-- Register `j + 1` starts with INIT_X[j + 1] (R48). -/
theorem resetHart_reg_succ (p : Params) (j : Fin 31) : (resetHart p).reg j.succ = p.initX[j] := by
  have h : ¬ j.succ = 0 := Fin.succ_ne_zero j
  have e : (resetHart p).reg j.succ = (resetHart p).x[j.succ] := if_neg h
  rw [e]
  simp [resetHart]

/-- Loading segments keeps the canonical form and the window. -/
theorem loadSegments_wf (gs : List Segment) {m : Memory} (h : m.wf = true) :
    (gs.foldl (fun m g => m.load g.addr g.bytes) m).wf = true
      ∧ (gs.foldl (fun m g => m.load g.addr g.bytes) m).base = m.base
      ∧ (gs.foldl (fun m g => m.load g.addr g.bytes) m).size = m.size := by
  induction gs generalizing m with
  | nil => exact ⟨h, rfl, rfl⟩
  | cons g gs ih => simpa using ih (Memory.load_wf h g.addr g.bytes)

/-- The reset image is canonical, with the window the parameters give (R372). -/
theorem loadedImage_wf (p : Params) :
    (loadedImage p).wf = true ∧ (loadedImage p).base = p.memBase ∧ (loadedImage p).size = p.memSize :=
  loadSegments_wf p.image (Memory.zeroed_wf p.memBase p.memSize)

theorem reset_mem_wf : State.reset.hart.mem.wf = true := (loadedImage_wf Params.named).1

/-- Placing a word keeps the canonical form. -/
theorem withFetchWord_wf {s : State} (h : s.hart.mem.wf = true) (nbits w : Nat) :
    (s.withFetchWord nbits w).hart.mem.wf = true := Memory.load_wf h _ _

end Sys2Proof.Machine
end

