-- ==== Sys2Proof/Laws/Step.lean ====
section
/-! SUPPORT. Everything an instruction and a step can do, said once. -/

namespace Sys2Proof.Machine

/-- The ways an instruction can end from a state: the five shapes of an outcome, each with what the instruction's class
(R35, R81, R163) says of it. -/
inductive Effect (i : Instr) (s : State) : Host.Outcome State Fault Refusal → Prop where
  | raised (f : Fault) (hf : f = .illegalInstruction ∨ f = .outOfBounds) : Effect i s (raise f s)
  | wrote (rd : Reg) (v : Word s.xlen) (hd : i.dest = some rd) (hs : i.stores = none) (hc : i.controls = false) :
      Effect i s (writeBack rd s v)
  | linked (rd : Reg) (target : Word s.xlen) (hd : i.dest = some rd) (hs : i.stores = none) (hc : i.controls = true) :
      Effect i s (linkAndJump rd s target)
  | stored (n : Nat) (rs1 : Reg) (imm : BitVec 12) (data : Word s.xlen) (mem : Memory) (hs : i.stores = some (n, rs1, imm))
      (hm : lsuStore s.hart.mem (s.hart.storeAddr rs1 imm) n data = some mem) (hd : i.dest = none)
      (hc : i.controls = false) (hn : 8 * n ≤ s.xlen.bits) :
      Effect i s (retire s ((s.hart.setMem mem).setPc s.hart.nextPc))
  | went (target : Word s.xlen) (hd : i.dest = none) (hs : i.stores = none)
      (hc : i.controls = false → target = s.hart.nextPc) : Effect i s (retire s (s.hart.setPc target))

theorem effect_writeBack {i : Instr} {s : State} {rd : Reg} {v : Word s.xlen} (hd : i.dest = some rd)
    (hs : i.stores = none) (hc : i.controls = false) : Effect i s (writeBack rd s v) := .wrote rd v hd hs hc

theorem effect_onlyAt64 {i : Instr} {s : State} {o : Host.Outcome State Fault Refusal}
    (h : s.xlen = .rv64 → Effect i s o) : Effect i s (onlyAt64 s o) := by
  unfold onlyAt64
  split
  · exact h ‹_›
  · exact .raised _ (.inl rfl)

theorem effect_loadInto {i : Instr} {s : State} {n : Nat} {signed : Bool} {rd rs1 : Reg} {imm : BitVec 12}
    (hd : i.dest = some rd) (hs : i.stores = none) (hc : i.controls = false) :
    Effect i s (loadInto n signed rd rs1 imm s) := by
  obtain ⟨v, -, e⟩ | ⟨-, e⟩ := loadInto_cases n signed rd rs1 imm s <;> rw [e]
  · exact .wrote rd v hd hs hc
  · exact .raised _ (.inr rfl)

theorem effect_storeFrom {i : Instr} {s : State} {n : Nat} {rs1 rs2 : Reg} {imm : BitVec 12}
    (hs : i.stores = some (n, rs1, imm)) (hd : i.dest = none) (hc : i.controls = false) (hn : 8 * n ≤ s.xlen.bits) :
    Effect i s (storeFrom n rs1 rs2 imm s) := by
  obtain ⟨mem, hm, e⟩ | ⟨-, e⟩ := storeFrom_cases n rs1 rs2 imm s <;> rw [e]
  · exact .stored n rs1 imm _ mem hs hm hd hc hn
  · exact .raised _ (.inr rfl)

theorem effect_aluShamt {i : Instr} {s : State} {op : AluOp} {rd rs1 : Reg} {shamt : BitVec 6}
    (hd : i.dest = some rd) (hs : i.stores = none) (hc : i.controls = false) :
    Effect i s (aluShamt op rd rs1 shamt s) := by
  obtain ⟨-, e⟩ | ⟨-, e⟩ := aluShamt_cases op rd rs1 shamt s <;> rw [e]
  · exact .wrote rd _ hd hs hc
  · exact .raised _ (.inl rfl)

theorem effect_branchIf {i : Instr} {s : State} {c : Cond} {rs1 rs2 : Reg} {imm : BitVec 13} (hd : i.dest = none)
    (hs : i.stores = none) (hc : i.controls = true) : Effect i s (branchIf c rs1 rs2 imm s) := by
  rw [branchIf_eq]
  exact .went _ hd hs fun h => by rw [hc] at h; cases h

/-- Everything executing an instruction can do. -/
theorem exec_effect (i : Instr) (s : State) : Effect i s (exec i s) := by
  have h32 := XLen.le_bits s.xlen
  cases i with
  | lb | lh | lw | lbu | lhu => exact effect_loadInto rfl rfl rfl
  | ld => exact effect_onlyAt64 fun _ => effect_loadInto rfl rfl rfl
  | sb | sh | sw => exact effect_storeFrom rfl rfl rfl (by omega)
  | sd => exact effect_onlyAt64 fun h => effect_storeFrom rfl rfl rfl (by rw [h]; decide)
  | slli | srli | srai => exact effect_aluShamt rfl rfl rfl
  | addiw | slliw | srliw | sraiw | addw | subw | sllw | srlw | sraw =>
    exact effect_onlyAt64 fun _ => effect_writeBack rfl rfl rfl
  | beq | bne | blt | bge | bltu | bgeu => exact effect_branchIf rfl rfl rfl
  | jalr | jal => exact .linked _ _ rfl rfl rfl
  | ecall | ebreak | fence => exact .went _ rfl rfl fun _ => rfl
  | _ => exact effect_writeBack rfl rfl rfl

/-- An instruction always answers a next state of the same width: no meaning faults or refuses. -/
theorem exec_next (i : Instr) {k : XLen} (m : Hart k) : ∃ t : Hart k, exec i ⟨k, m⟩ = .next ⟨k, t⟩ := by
  have h := exec_effect i ⟨k, m⟩
  generalize exec i ⟨k, m⟩ = o at h
  cases h <;> exact ⟨_, rfl⟩

/-- Everything a step of a running core can do: the fetch faults, the word is Illegal, or the instruction runs. -/
theorem step_cases {k : XLen} (m : Hart k) (hr : m.run = .running) :
    (∃ f, m.fetch = .bad f ∧ step ⟨k, m⟩ = raise f ⟨k, m⟩)
      ∨ (∃ w why, m.fetch = .word w ∧ decode k w = .illegal why ∧ step ⟨k, m⟩ = raise .illegalInstruction ⟨k, m⟩)
      ∨ (∃ w i, m.fetch = .word w ∧ decode k w = .legal i ∧ step ⟨k, m⟩ = exec i ⟨k, m⟩) := by
  unfold step runWord
  simp only [hr]
  cases hf : m.fetch with
  | bad f => exact .inl ⟨f, rfl, rfl⟩
  | word w =>
    refine .inr ?_
    cases hd : decode k w with
    | illegal why => exact .inl ⟨w, why, rfl, hd, by simp [hd]⟩
    | legal i => exact .inr ⟨w, i, rfl, hd, by simp [hd]⟩

/-- A halted core answers the fault that stopped it. -/
theorem step_of_halted {s : State} {f : Fault} (h : s.hart.run = .halted f) : step s = .fault f := by
  unfold step; rw [h]

end Sys2Proof.Machine
end

