-- ==== Sys2Proof/Tests/Slice0.lean ====
section
/-! SUPPORT. Tests: ill-formed instructions are refused, words written out from the spec's encodings decode to their
instructions, one step per instruction with the result 95_test_vectors.md gives, the faults, and for every obligation with
hypotheses a state that meets them. -/

namespace Sys2Proof.Tests

open Sys2Proof Sys2Proof.Machine

/-! ### WellFormed refuses ill-formed instructions -/

theorem test_wellFormed_refuses_odd_branch_offset (k : XLen) :
    (Instr.beq 1 2 0x001#13).wellFormed k = false ∧ (Instr.bne 1 2 0x003#13).wellFormed k = false
      ∧ (Instr.blt 1 2 0x1FFF#13).wellFormed k = false ∧ (Instr.bge 1 2 0x001#13).wellFormed k = false
      ∧ (Instr.bltu 1 2 0x001#13).wellFormed k = false ∧ (Instr.bgeu 1 2 0x001#13).wellFormed k = false := by
  cases k <;> decide
theorem test_wellFormed_refuses_odd_jal_offset (k : XLen) : (Instr.jal 1 0x000001#21).wellFormed k = false := by
  cases k <;> decide
theorem test_wellFormed_refuses_rv64_memory_at_xlen32 :
    (Instr.ld 1 2 0#12).wellFormed .rv32 = false ∧ (Instr.sd 1 2 0#12).wellFormed .rv32 = false := by decide
theorem test_wellFormed_refuses_word_immediates_at_xlen32 :
    (Instr.addiw 1 2 0#12).wellFormed .rv32 = false ∧ (Instr.slliw 1 2 0#5).wellFormed .rv32 = false
      ∧ (Instr.srliw 1 2 0#5).wellFormed .rv32 = false ∧ (Instr.sraiw 1 2 0#5).wellFormed .rv32 = false := by decide
theorem test_wellFormed_refuses_word_operations_at_xlen32 :
    (Instr.addw 1 2 3).wellFormed .rv32 = false ∧ (Instr.subw 1 2 3).wellFormed .rv32 = false
      ∧ (Instr.sllw 1 2 3).wellFormed .rv32 = false ∧ (Instr.srlw 1 2 3).wellFormed .rv32 = false
      ∧ (Instr.sraw 1 2 3).wellFormed .rv32 = false := by decide
theorem test_wellFormed_refuses_wide_shift_at_xlen32 :
    (Instr.slli 1 2 32#6).wellFormed .rv32 = false ∧ (Instr.srli 1 2 63#6).wellFormed .rv32 = false
      ∧ (Instr.srai 1 2 32#6).wellFormed .rv32 = false ∧ (Instr.srai 1 2 31#6).wellFormed .rv32 = true
      ∧ (Instr.srai 1 2 63#6).wellFormed .rv64 = true := by decide

/-! ### Decoding: every constructor, from a word written out field by field (30_encoding.md R113 to R117, R127; the words are
those of 95_test_vectors.md) -/

/-- V-L1, V-L2, V-L3, V-L7, V-L4, V-L5. -/
theorem test_decode_loads :
    decode .rv32 0b000000010000_00110_000_00101_0000011#32 = .legal (.lb 5 6 0x010#12)
    ∧ decode .rv32 0b000000010000_00110_001_00101_0000011#32 = .legal (.lh 5 6 0x010#12)
    ∧ decode .rv32 0b000000010000_00110_010_00101_0000011#32 = .legal (.lw 5 6 0x010#12)
    ∧ decode .rv64 0b000000010000_00110_011_00101_0000011#32 = .legal (.ld 5 6 0x010#12)
    ∧ decode .rv32 0b000000010000_00110_100_00101_0000011#32 = .legal (.lbu 5 6 0x010#12)
    ∧ decode .rv32 0b000000010000_00110_101_00101_0000011#32 = .legal (.lhu 5 6 0x010#12) := by decide
/-- V-S1, V-S2, V-S3, V-S4, V-S5. -/
theorem test_decode_stores :
    decode .rv32 0b1111111_00111_00110_000_11100_0100011#32 = .legal (.sb 6 7 0xFFC#12)
    ∧ decode .rv32 0b1111111_00111_00110_001_11100_0100011#32 = .legal (.sh 6 7 0xFFC#12)
    ∧ decode .rv32 0b1111111_00111_00110_010_11100_0100011#32 = .legal (.sw 6 7 0xFFC#12)
    ∧ decode .rv64 0b1111111_00111_00110_011_11100_0100011#32 = .legal (.sd 6 7 0xFFC#12)
    ∧ decode .rv32 0b0000000_00111_00110_010_10001_0100011#32 = .legal (.sw 6 7 0x011#12) := by decide
/-- V-I1, V-I6, V-I8, V-I11, V-I12, V-I13. -/
theorem test_decode_op_imm :
    decode .rv32 0b111111111111_00110_000_00101_0010011#32 = .legal (.addi 5 6 0xFFF#12)
    ∧ decode .rv32 0b111111111111_00110_010_00101_0010011#32 = .legal (.slti 5 6 0xFFF#12)
    ∧ decode .rv32 0b111111111111_00110_011_00101_0010011#32 = .legal (.sltiu 5 6 0xFFF#12)
    ∧ decode .rv32 0b111111111111_00110_100_00101_0010011#32 = .legal (.xori 5 6 0xFFF#12)
    ∧ decode .rv32 0b000011110000_00110_110_00101_0010011#32 = .legal (.ori 5 6 0x0F0#12)
    ∧ decode .rv32 0b011111111111_00110_111_00101_0010011#32 = .legal (.andi 5 6 0x7FF#12) := by decide
/-- V-I16, V-I18, V-I22, V-I17, V-I20, V-I24. -/
theorem test_decode_shift_imm :
    decode .rv32 0b0000000_11111_00110_001_00101_0010011#32 = .legal (.slli 5 6 31#6)
    ∧ decode .rv32 0b0000000_00100_00110_101_00101_0010011#32 = .legal (.srli 5 6 4#6)
    ∧ decode .rv32 0b0100000_11111_00110_101_00101_0010011#32 = .legal (.srai 5 6 31#6)
    ∧ decode .rv64 0b0000001_00100_00110_001_00101_0010011#32 = .legal (.slli 5 6 36#6)
    ∧ decode .rv64 0b0000001_11111_00110_101_00101_0010011#32 = .legal (.srli 5 6 63#6)
    ∧ decode .rv64 0b0100001_00000_00110_101_00101_0010011#32 = .legal (.srai 5 6 32#6) := by decide
/-- V-I28, V-I30, V-I31, V-I33. -/
theorem test_decode_op_imm_32 :
    decode .rv64 0b0000000_00001_00110_000_00101_0011011#32 = .legal (.addiw 5 6 1#12)
    ∧ decode .rv64 0b0000000_11111_00110_001_00101_0011011#32 = .legal (.slliw 5 6 31#5)
    ∧ decode .rv64 0b0000000_00100_00110_101_00101_0011011#32 = .legal (.srliw 5 6 4#5)
    ∧ decode .rv64 0b0100000_00100_00110_101_00101_0011011#32 = .legal (.sraiw 5 6 4#5) := by decide
/-- V-R1, V-R3, V-R5, V-R8, V-R10, V-R12, V-R13, V-R16, V-R18, V-R19. -/
theorem test_decode_op :
    decode .rv32 0b0000000_00111_00110_000_00101_0110011#32 = .legal (.add 5 6 7)
    ∧ decode .rv32 0b0100000_00111_00110_000_00101_0110011#32 = .legal (.sub 5 6 7)
    ∧ decode .rv32 0b0000000_00111_00110_001_00101_0110011#32 = .legal (.sll 5 6 7)
    ∧ decode .rv32 0b0000000_00111_00110_010_00101_0110011#32 = .legal (.slt 5 6 7)
    ∧ decode .rv32 0b0000000_00111_00110_011_00101_0110011#32 = .legal (.sltu 5 6 7)
    ∧ decode .rv32 0b0000000_00111_00110_100_00101_0110011#32 = .legal (.xor 5 6 7)
    ∧ decode .rv32 0b0000000_00111_00110_101_00101_0110011#32 = .legal (.srl 5 6 7)
    ∧ decode .rv32 0b0100000_00111_00110_101_00101_0110011#32 = .legal (.sra 5 6 7)
    ∧ decode .rv32 0b0000000_00111_00110_110_00101_0110011#32 = .legal (.or 5 6 7)
    ∧ decode .rv32 0b0000000_00111_00110_111_00101_0110011#32 = .legal (.and 5 6 7) := by decide
/-- V-R24, V-R26, V-R27, V-R28, V-R30. -/
theorem test_decode_op_32 :
    decode .rv64 0b0000000_00111_00110_000_00101_0111011#32 = .legal (.addw 5 6 7)
    ∧ decode .rv64 0b0100000_00111_00110_000_00101_0111011#32 = .legal (.subw 5 6 7)
    ∧ decode .rv64 0b0000000_00111_00110_001_00101_0111011#32 = .legal (.sllw 5 6 7)
    ∧ decode .rv64 0b0000000_00111_00110_101_00101_0111011#32 = .legal (.srlw 5 6 7)
    ∧ decode .rv64 0b0100000_00111_00110_101_00101_0111011#32 = .legal (.sraw 5 6 7) := by decide
/-- V-U1, V-U9. -/
theorem test_decode_upper :
    decode .rv32 0b00010010001101000101_00101_0110111#32 = .legal (.lui 5 0x12345#20)
    ∧ decode .rv32 0b11111111111111111111_00101_0010111#32 = .legal (.auipc 5 0xFFFFF#20) := by decide
/-- V-B1, V-B3, V-B5, V-B8, V-B10, V-B12, V-B15, V-B17. -/
theorem test_decode_branches :
    decode .rv32 0b0_000000_00111_00110_000_1000_0_1100011#32 = .legal (.beq 6 7 16#13)
    ∧ decode .rv32 0b0_000000_00111_00110_001_1000_0_1100011#32 = .legal (.bne 6 7 16#13)
    ∧ decode .rv32 0b0_000000_00111_00110_100_1000_0_1100011#32 = .legal (.blt 6 7 16#13)
    ∧ decode .rv32 0b0_000000_00111_00110_101_1000_0_1100011#32 = .legal (.bge 6 7 16#13)
    ∧ decode .rv32 0b0_000000_00111_00110_110_1000_0_1100011#32 = .legal (.bltu 6 7 16#13)
    ∧ decode .rv32 0b0_000000_00111_00110_111_1000_0_1100011#32 = .legal (.bgeu 6 7 16#13)
    ∧ decode .rv32 0b1_111111_00000_00000_000_1110_1_1100011#32 = .legal (.beq 0 0 0x1FFC#13)
    ∧ decode .rv32 0b0_111111_00000_00000_000_1111_1_1100011#32 = .legal (.beq 0 0 4094#13) := by decide
/-- V-J11, V-J2, V-J4. -/
theorem test_decode_jumps :
    decode .rv32 0b111111111100_00001_000_00001_1100111#32 = .legal (.jalr 1 1 0xFFC#12)
    ∧ decode .rv32 0b1_1111111100_1_11111111_00001_1101111#32 = .legal (.jal 1 0x1FFFF8#21)
    ∧ decode .rv32 0b1_0000000000_0_00000000_00001_1101111#32 = .legal (.jal 1 0x100000#21) := by decide
/-- V-Y1, V-Y2, V-Y3, V-Y4, V-Y5. -/
theorem test_decode_system :
    decode .rv32 0b000000000000_00000_000_00000_1110011#32 = .legal .ecall
    ∧ decode .rv32 0b000000000001_00000_000_00000_1110011#32 = .legal .ebreak
    ∧ decode .rv32 0b000011111111_00000_000_00000_0001111#32 = .legal (.fence 0 15 15 0 0)
    ∧ decode .rv32 0b100011111111_00101_000_00101_0001111#32 = .legal (.fence 8 15 15 5 5)
    ∧ decode .rv64 0b100000110011_00000_000_00000_0001111#32 = .legal (.fence 8 3 3 0 0) := by decide
/-- Illegal neighbours of legal words: V-L19, V-L20, V-L21, V-I25, V-I26, V-I27, V-I34, V-I35, V-R22, V-R23, V-R31, V-B21,
V-J15, V-F6, V-F7, V-F8. -/
theorem test_decode_refuses :
    decode .rv32 0x01033283#32 = .illegal .rv64Only ∧ decode .rv64 0x01036283#32 = .illegal .funct3
    ∧ decode .rv64 0x01037283#32 = .illegal .funct3 ∧ decode .rv32 0x02431293#32 = .illegal .funct7
    ∧ decode .rv32 0x02035293#32 = .illegal .funct7 ∧ decode .rv64 0x44435293#32 = .illegal .funct7
    ∧ decode .rv64 0x0203129B#32 = .illegal .funct7 ∧ decode .rv32 0x0013029B#32 = .illegal .rv64Only
    ∧ decode .rv32 0x027302B3#32 = .illegal .funct7 ∧ decode .rv32 0x407312B3#32 = .illegal .funct7
    ∧ decode .rv32 0x007302BB#32 = .illegal .rv64Only ∧ decode .rv32 0x00732863#32 = .illegal .funct3
    ∧ decode .rv32 0x000290E7#32 = .illegal .funct3 ∧ decode .rv32 0x00000000#32 = .illegal .opcode
    ∧ decode .rv32 0xFFFFFFFF#32 = .illegal .opcode ∧ decode .rv32 0x00000001#32 = .illegal .opcode := by decide
/-- SYSTEM and MISC-MEM: V-Y6 to V-Y11. -/
theorem test_decode_refuses_system :
    decode .rv32 0x0000100F#32 = .illegal .funct3 ∧ decode .rv32 0x000002F3#32 = .illegal .system
    ∧ decode .rv32 0xC00022F3#32 = .illegal .system ∧ decode .rv32 0x30200073#32 = .illegal .system
    ∧ decode .rv32 0x10500073#32 = .illegal .system ∧ decode .rv32 0x00108073#32 = .illegal .system := by decide
/-- Immediates at XLEN 64 and 32: V-D1, V-D6, V-D7, V-D12, V-D15, V-D18, V-D19, V-D22, V-D27. -/
theorem test_decoded_fields :
    (decoded .rv32 0x40735293#32).funct7 = 0x20#7 ∧ (decoded .rv32 0x40735293#32).rs2 = 7
    ∧ (decoded .rv64 0xFFF00093#32).immI.toNat = 0xFFFFFFFFFFFFFFFF ∧ (decoded .rv32 0x8020A023#32).immS.toNat = 0xFFFFF800
    ∧ (decoded .rv32 0x7E208FE3#32).immB.toNat = 0x00000FFE ∧ (decoded .rv64 0x80208063#32).immB.toNat = 0xFFFFFFFFFFFFF000
    ∧ (decoded .rv32 0x800000B7#32).immU.toNat = 0x80000000 ∧ (decoded .rv64 0x800000B7#32).immU.toNat = 0xFFFFFFFF80000000
    ∧ (decoded .rv32 0x8000006F#32).immJ.toNat = 0xFFF00000
    ∧ (decoded .rv64 0x8000006F#32).immJ.toNat = 0xFFFFFFFFFFF00000 := by decide
/-- The bytes of a word, the lowest address first (20_memory.md R76), and a table word of 32 bits. -/
theorem test_byte_order_of_a_word :
    bytesOfWord 0x00500093#32 = [0x93#8, 0x00#8, 0x50#8, 0x00#8] ∧ decodeTableWord 32 0x00500093 = some (.addi 1 0 5#12)
    ∧ decodeTableWord 32 0x00000000 = none := by decide

/-! ### One step of each instruction (the results are those of 95_test_vectors.md) -/

/-- A hart in the window `0x80000000 .. 0x8000FFFF`, with the registers and cells named and zero elsewhere. -/
def hartOf (k : XLen) (regs : List (Reg × Nat)) (pc : Nat) (cells : List Host.Cell) : Hart k :=
  regs.foldl (fun h r => h.setReg r.1 (BitVec.ofNat _ r.2))
    { x := Vector.replicate 32 0#_, pc := BitVec.ofNat _ pc, mem := ⟨0x80000000, 0x10000, cells⟩, run := .running }

/-- The same with an instruction word stored at the pc. -/
def at_ (k : XLen) (w : BitVec 32) (regs : List (Reg × Nat)) (pc : Nat := 0x80000000) (cells : List Host.Cell := []) : State :=
  ⟨k, (hartOf k regs pc cells).placeWord w⟩

/-- The step from `s` gives a state with this run state, pc, these registers and these bytes. -/
def ends (s : State) (run : RunState) (pc : Nat) (regs : List (Reg × Nat)) (bytes : List (Nat × Nat) := []) : Bool :=
  match step s with
  | .next t =>
    decide (t.hart.run = run) && t.hart.pc.toNat == pc && regs.all (fun r => (t.hart.reg r.1).toNat == r.2)
      && bytes.all (fun b => (t.hart.mem.byte b.1).toNat == b.2)
  | .fault _ => false
  | .refused _ => false

/-- The bytes the spec's load examples use, at `0x80000110`. -/
def loadBytes : List Host.Cell :=
  [(0x80000110, 0xF1#8), (0x80000111, 0xF2#8), (0x80000112, 0xF3#8), (0x80000113, 0x84#8),
   (0x80000114, 0x55#8), (0x80000115, 0x66#8), (0x80000116, 0x77#8), (0x80000117, 0x88#8)]

/-- V-L1. -/
theorem test_lb :
    ends (at_ .rv32 0x01030283#32 [(6, 0x80000100)] 0x80000000 loadBytes) .running 0x80000004 [(5, 0xFFFFFFF1), (6, 0x80000100)] = true := by decide
/-- V-L14. -/
theorem test_lb_below_window :
    ends (at_ .rv32 0xFFF30283#32 [(6, 0x80000000)]) (.halted .outOfBounds) 0x80000000 [(6, 0x80000000)] = true := by decide
/-- V-L9. -/
theorem test_lh :
    ends (at_ .rv32 0x01131283#32 [(6, 0x80000100)] 0x80000000 loadBytes) .running 0x80000004 [(5, 0xFFFFF3F2), (6, 0x80000100)] = true := by decide
/-- V-L6. -/
theorem test_lw :
    ends (at_ .rv64 0x01032283#32 [(6, 0x80000100)] 0x80000000 loadBytes) .running 0x80000004 [(5, 0xFFFFFFFF84F3F2F1), (6, 0x80000100)] = true := by decide
/-- V-L10. -/
theorem test_lw_misaligned :
    ends (at_ .rv32 0x01332283#32 [(6, 0x80000100)] 0x80000000 loadBytes) .running 0x80000004 [(5, 0x77665584), (6, 0x80000100)] = true := by decide
/-- V-L7. -/
theorem test_ld :
    ends (at_ .rv64 0x01033283#32 [(6, 0x80000100)] 0x80000000 loadBytes) .running 0x80000004 [(5, 0x8877665584F3F2F1), (6, 0x80000100)] = true := by decide
/-- V-L8. -/
theorem test_lbu :
    ends (at_ .rv64 0x01334283#32 [(6, 0x80000100)] 0x80000000 loadBytes) .running 0x80000004 [(5, 0x84), (6, 0x80000100)] = true := by decide
/-- V-L5. -/
theorem test_lhu :
    ends (at_ .rv32 0x01035283#32 [(6, 0x80000100)] 0x80000000 loadBytes) .running 0x80000004 [(5, 0xF2F1), (6, 0x80000100)] = true := by decide
/-- V-S1. -/
theorem test_sb :
    ends (at_ .rv32 0xFE730E23#32 [(6, 0x80000104), (7, 0x55667788)]) .running 0x80000004 [(6, 0x80000104), (7, 0x55667788)] [(0x80000100, 0x88), (0x80000101, 0x00), (0x80000102, 0x00), (0x80000103, 0x00)] = true := by decide
/-- V-S2. -/
theorem test_sh :
    ends (at_ .rv32 0xFE731E23#32 [(6, 0x80000104), (7, 0x55667788)]) .running 0x80000004 [(6, 0x80000104), (7, 0x55667788)] [(0x80000100, 0x88), (0x80000101, 0x77), (0x80000102, 0x00), (0x80000103, 0x00)] = true := by decide
/-- V-S5. -/
theorem test_sw :
    ends (at_ .rv32 0x007328A3#32 [(6, 0x80000100), (7, 0xA1B2C3D4)]) .running 0x80000004 [(6, 0x80000100), (7, 0xA1B2C3D4)] [(0x80000110, 0x00), (0x80000111, 0xD4), (0x80000112, 0xC3), (0x80000113, 0xB2), (0x80000114, 0xA1), (0x80000115, 0x00)] = true := by decide
/-- V-S6. -/
theorem test_sw_partial_overlap :
    ends (at_ .rv32 0xFE732F23#32 [(6, 0x80010000), (7, 0xA1B2C3D4)]) (.halted .outOfBounds) 0x80000000 [(6, 0x80010000), (7, 0xA1B2C3D4)] [(0x8000FFFE, 0x00), (0x8000FFFF, 0x00)] = true := by decide
/-- V-S4. -/
theorem test_sd :
    ends (at_ .rv64 0xFE733E23#32 [(6, 0x80000104), (7, 0x1122334455667788)]) .running 0x80000004 [(6, 0x80000104), (7, 0x1122334455667788)] [(0x80000100, 0x88), (0x80000101, 0x77), (0x80000102, 0x66), (0x80000103, 0x55), (0x80000104, 0x44), (0x80000105, 0x33), (0x80000106, 0x22), (0x80000107, 0x11)] = true := by decide
/-- V-I2. -/
theorem test_addi :
    ends (at_ .rv32 0x00130293#32 [(6, 0x7FFFFFFF)]) .running 0x80000004 [(5, 0x80000000), (6, 0x7FFFFFFF)] = true := by decide
/-- V-I5. -/
theorem test_addi_x0 :
    ends (at_ .rv32 0x00530013#32 [(6, 0x1)]) .running 0x80000004 [(0, 0x0), (6, 0x1)] = true := by decide
/-- V-I6. -/
theorem test_slti :
    ends (at_ .rv32 0xFFF32293#32 [(6, 0xFFFFFFFE)]) .running 0x80000004 [(5, 0x1), (6, 0xFFFFFFFE)] = true := by decide
/-- V-I8. -/
theorem test_sltiu :
    ends (at_ .rv32 0xFFF33293#32 [(6, 0x5)]) .running 0x80000004 [(5, 0x1), (6, 0x5)] = true := by decide
/-- V-I11. -/
theorem test_xori :
    ends (at_ .rv32 0xFFF34293#32 [(6, 0xF0F0F0F)]) .running 0x80000004 [(5, 0xF0F0F0F0), (6, 0xF0F0F0F)] = true := by decide
/-- V-I12. -/
theorem test_ori :
    ends (at_ .rv32 0x0F036293#32 [(6, 0xF000000)]) .running 0x80000004 [(5, 0xF0000F0), (6, 0xF000000)] = true := by decide
/-- V-I14. -/
theorem test_andi :
    ends (at_ .rv64 0xFF037293#32 [(6, 0x123456789ABCDEFF)]) .running 0x80000004 [(5, 0x123456789ABCDEF0), (6, 0x123456789ABCDEFF)] = true := by decide
/-- V-I15. -/
theorem test_slli_rv32 :
    ends (at_ .rv32 0x00431293#32 [(6, 0x81234567)]) .running 0x80000004 [(5, 0x12345670), (6, 0x81234567)] = true := by decide
/-- V-I17. -/
theorem test_slli_rv64 :
    ends (at_ .rv64 0x02431293#32 [(6, 0x81234567)]) .running 0x80000004 [(5, 0x1234567000000000), (6, 0x81234567)] = true := by decide
/-- V-I18. -/
theorem test_srli :
    ends (at_ .rv32 0x00435293#32 [(6, 0x81234567)]) .running 0x80000004 [(5, 0x8123456), (6, 0x81234567)] = true := by decide
/-- V-I20. -/
theorem test_srli_rv64 :
    ends (at_ .rv64 0x03F35293#32 [(6, 0x8000000000000000)]) .running 0x80000004 [(5, 0x1), (6, 0x8000000000000000)] = true := by decide
/-- V-I21. -/
theorem test_srai :
    ends (at_ .rv32 0x40435293#32 [(6, 0x81234567)]) .running 0x80000004 [(5, 0xF8123456), (6, 0x81234567)] = true := by decide
/-- V-I24. -/
theorem test_srai_rv64 :
    ends (at_ .rv64 0x42035293#32 [(6, 0x8000000012345678)]) .running 0x80000004 [(5, 0xFFFFFFFF80000000), (6, 0x8000000012345678)] = true := by decide
/-- V-I28. -/
theorem test_addiw :
    ends (at_ .rv64 0x0013029B#32 [(6, 0x7FFFFFFF)]) .running 0x80000004 [(5, 0xFFFFFFFF80000000), (6, 0x7FFFFFFF)] = true := by decide
/-- V-I30. -/
theorem test_slliw :
    ends (at_ .rv64 0x01F3129B#32 [(6, 0x1)]) .running 0x80000004 [(5, 0xFFFFFFFF80000000), (6, 0x1)] = true := by decide
/-- V-I31. -/
theorem test_srliw :
    ends (at_ .rv64 0x0043529B#32 [(6, 0xFFFFFFFF80000000)]) .running 0x80000004 [(5, 0x8000000), (6, 0xFFFFFFFF80000000)] = true := by decide
/-- V-I33. -/
theorem test_sraiw :
    ends (at_ .rv64 0x4043529B#32 [(6, 0x80000000)]) .running 0x80000004 [(5, 0xFFFFFFFFF8000000), (6, 0x80000000)] = true := by decide
/-- V-R1. -/
theorem test_add :
    ends (at_ .rv32 0x007302B3#32 [(6, 0xFFFFFFFF), (7, 0x2)]) .running 0x80000004 [(5, 0x1), (6, 0xFFFFFFFF), (7, 0x2)] = true := by decide
/-- V-R21. -/
theorem test_add_same_registers :
    ends (at_ .rv32 0x00630333#32 [(6, 0x40000000)]) .running 0x80000004 [(6, 0x80000000)] = true := by decide
/-- V-R3. -/
theorem test_sub :
    ends (at_ .rv32 0x407302B3#32 [(6, 0x0), (7, 0x1)]) .running 0x80000004 [(5, 0xFFFFFFFF), (6, 0x0), (7, 0x1)] = true := by decide
/-- V-R5. -/
theorem test_sll :
    ends (at_ .rv32 0x007312B3#32 [(6, 0x1), (7, 0x21)]) .running 0x80000004 [(5, 0x2), (6, 0x1), (7, 0x21)] = true := by decide
/-- V-R7. -/
theorem test_sll_rv64 :
    ends (at_ .rv64 0x007312B3#32 [(6, 0x1), (7, 0x40)]) .running 0x80000004 [(5, 0x1), (6, 0x1), (7, 0x40)] = true := by decide
/-- V-R8. -/
theorem test_slt :
    ends (at_ .rv32 0x007322B3#32 [(6, 0x80000000), (7, 0x1)]) .running 0x80000004 [(5, 0x1), (6, 0x80000000), (7, 0x1)] = true := by decide
/-- V-R10. -/
theorem test_sltu :
    ends (at_ .rv32 0x007332B3#32 [(6, 0x80000000), (7, 0x1)]) .running 0x80000004 [(5, 0x0), (6, 0x80000000), (7, 0x1)] = true := by decide
/-- V-R12. -/
theorem test_xor :
    ends (at_ .rv32 0x007342B3#32 [(6, 0xFF00FF00), (7, 0xFF00FF0)]) .running 0x80000004 [(5, 0xF0F0F0F0), (6, 0xFF00FF00), (7, 0xFF00FF0)] = true := by decide
/-- V-R14. -/
theorem test_srl :
    ends (at_ .rv32 0x007352B3#32 [(6, 0x80000000), (7, 0xFFFFFFE1)]) .running 0x80000004 [(5, 0x40000000), (6, 0x80000000), (7, 0xFFFFFFE1)] = true := by decide
/-- V-R17. -/
theorem test_sra :
    ends (at_ .rv64 0x407352B3#32 [(6, 0x8000000000000000), (7, 0x20)]) .running 0x80000004 [(5, 0xFFFFFFFF80000000), (6, 0x8000000000000000), (7, 0x20)] = true := by decide
/-- V-R18. -/
theorem test_or :
    ends (at_ .rv32 0x007362B3#32 [(6, 0xF0), (7, 0xF)]) .running 0x80000004 [(5, 0xFF), (6, 0xF0), (7, 0xF)] = true := by decide
/-- V-R19. -/
theorem test_and :
    ends (at_ .rv32 0x007372B3#32 [(6, 0xF0), (7, 0x3C)]) .running 0x80000004 [(5, 0x30), (6, 0xF0), (7, 0x3C)] = true := by decide
/-- V-R25. -/
theorem test_addw :
    ends (at_ .rv64 0x007302BB#32 [(6, 0xFFFFFFFF00000001), (7, 0x1234567800000002)]) .running 0x80000004 [(5, 0x3), (6, 0xFFFFFFFF00000001), (7, 0x1234567800000002)] = true := by decide
/-- V-R26. -/
theorem test_subw :
    ends (at_ .rv64 0x407302BB#32 [(6, 0x0), (7, 0x1)]) .running 0x80000004 [(5, 0xFFFFFFFFFFFFFFFF), (6, 0x0), (7, 0x1)] = true := by decide
/-- V-R27. -/
theorem test_sllw :
    ends (at_ .rv64 0x007312BB#32 [(6, 0xFFFFFFFF00000001), (7, 0x21)]) .running 0x80000004 [(5, 0x2), (6, 0xFFFFFFFF00000001), (7, 0x21)] = true := by decide
/-- V-R28. -/
theorem test_srlw :
    ends (at_ .rv64 0x007352BB#32 [(6, 0xFFFFFFFF80000000), (7, 0x4)]) .running 0x80000004 [(5, 0x8000000), (6, 0xFFFFFFFF80000000), (7, 0x4)] = true := by decide
/-- V-R30. -/
theorem test_sraw :
    ends (at_ .rv64 0x407352BB#32 [(6, 0x80000000), (7, 0x24)]) .running 0x80000004 [(5, 0xFFFFFFFFF8000000), (6, 0x80000000), (7, 0x24)] = true := by decide
/-- V-U1. -/
theorem test_lui_rv32 :
    ends (at_ .rv32 0x123452B7#32 []) .running 0x80000004 [(5, 0x12345000)] = true := by decide
/-- V-U4. -/
theorem test_lui_rv64 :
    ends (at_ .rv64 0x800002B7#32 []) .running 0x80000004 [(5, 0xFFFFFFFF80000000)] = true := by decide
/-- V-U9. -/
theorem test_auipc :
    ends (at_ .rv32 0xFFFFF297#32 []) .running 0x80000004 [(5, 0x7FFFF000)] = true := by decide
/-- V-U10. -/
theorem test_auipc_rv64 :
    ends (at_ .rv64 0x80000297#32 []) .running 0x80000004 [(5, 0x0)] = true := by decide
/-- V-B16. -/
theorem test_beq_taken :
    ends (at_ .rv32 0x80000063#32 [] 0x80001000) .running 0x80000000 [] = true := by decide
/-- V-B2. -/
theorem test_beq_not_taken :
    ends (at_ .rv32 0x00730863#32 [(6, 0x3), (7, 0x4)]) .running 0x80000004 [(6, 0x3), (7, 0x4)] = true := by decide
/-- V-B3. -/
theorem test_bne_taken :
    ends (at_ .rv32 0x00731863#32 [(6, 0x3), (7, 0x4)]) .running 0x80000010 [(6, 0x3), (7, 0x4)] = true := by decide
/-- V-B4. -/
theorem test_bne_not_taken :
    ends (at_ .rv32 0x00731863#32 [(6, 0x3), (7, 0x3)]) .running 0x80000004 [(6, 0x3), (7, 0x3)] = true := by decide
/-- V-B5. -/
theorem test_blt_taken :
    ends (at_ .rv32 0x00734863#32 [(6, 0xFFFFFFFF), (7, 0x1)]) .running 0x80000010 [(6, 0xFFFFFFFF), (7, 0x1)] = true := by decide
/-- V-B6. -/
theorem test_blt_not_taken :
    ends (at_ .rv32 0x00734863#32 [(6, 0x1), (7, 0xFFFFFFFF)]) .running 0x80000004 [(6, 0x1), (7, 0xFFFFFFFF)] = true := by decide
/-- V-B8. -/
theorem test_bge_taken :
    ends (at_ .rv32 0x00735863#32 [(6, 0x1), (7, 0xFFFFFFFF)]) .running 0x80000010 [(6, 0x1), (7, 0xFFFFFFFF)] = true := by decide
/-- V-B9. -/
theorem test_bge_equal :
    ends (at_ .rv32 0x00635863#32 [(6, 0x1)]) .running 0x80000010 [(6, 0x1)] = true := by decide
/-- V-B10. -/
theorem test_bltu_taken :
    ends (at_ .rv32 0x00736863#32 [(6, 0x1), (7, 0xFFFFFFFF)]) .running 0x80000010 [(6, 0x1), (7, 0xFFFFFFFF)] = true := by decide
/-- V-B11. -/
theorem test_bltu_not_taken :
    ends (at_ .rv32 0x00736863#32 [(6, 0xFFFFFFFF), (7, 0x1)]) .running 0x80000004 [(6, 0xFFFFFFFF), (7, 0x1)] = true := by decide
/-- V-B12. -/
theorem test_bgeu_taken :
    ends (at_ .rv32 0x00737863#32 [(6, 0xFFFFFFFF), (7, 0x1)]) .running 0x80000010 [(6, 0xFFFFFFFF), (7, 0x1)] = true := by decide
/-- V-B13. -/
theorem test_bgeu_not_taken :
    ends (at_ .rv32 0x00737863#32 [(6, 0x0), (7, 0x1)]) .running 0x80000004 [(6, 0x0), (7, 0x1)] = true := by decide
/-- V-J2. -/
theorem test_jal :
    ends (at_ .rv32 0xFF9FF0EF#32 [] 0x80001000) .running 0x80000FF8 [(1, 0x80001004)] = true := by decide
/-- V-J5. -/
theorem test_jal_x0 :
    ends (at_ .rv32 0x0000006F#32 [(1, 0x1234)] 0x80001000) .running 0x80001000 [(1, 0x1234)] = true := by decide
/-- V-J11. -/
theorem test_jalr_old_rs1 :
    ends (at_ .rv32 0xFFC080E7#32 [(1, 0x80000044)] 0x80000100) .running 0x80000040 [(1, 0x80000104)] = true := by decide
/-- V-J9. -/
theorem test_jalr_clears_bit0 :
    ends (at_ .rv32 0x003280E7#32 [(5, 0x80000200)] 0x80000100) .running 0x80000202 [(1, 0x80000104), (5, 0x80000200)] = true := by decide
/-- V-Y1. -/
theorem test_ecall :
    ends (at_ .rv32 0x00000073#32 [(5, 0x7)]) .running 0x80000004 [(5, 0x7)] = true := by decide
/-- V-Y2. -/
theorem test_ebreak :
    ends (at_ .rv32 0x00100073#32 [(5, 0x7)]) .running 0x80000004 [(5, 0x7)] = true := by decide
/-- V-Y4. -/
theorem test_fence :
    ends (at_ .rv32 0x8FF2828F#32 [(5, 0x7)]) .running 0x80000004 [(5, 0x7)] = true := by decide

/-! ### Faults (95_test_vectors.md V-F1 to V-F12) -/

theorem test_fetch_misaligned : ends ⟨.rv32, hartOf .rv32 [] 0x80000002 []⟩ (.halted .misaligned) 0x80000002 [] = true := by
  decide
theorem test_fetch_misaligned_before_bounds :
    ends ⟨.rv32, hartOf .rv32 [] 0x8000FFFE []⟩ (.halted .misaligned) 0x8000FFFE [] = true := by decide
theorem test_fetch_past_the_window : ends ⟨.rv32, hartOf .rv32 [] 0x80010000 []⟩ (.halted .outOfBounds) 0x80010000 [] = true := by
  decide
theorem test_fetch_below_the_window : ends ⟨.rv32, hartOf .rv32 [] 0x7FFFFFFC []⟩ (.halted .outOfBounds) 0x7FFFFFFC [] = true := by
  decide
theorem test_last_word_of_the_window :
    ends (at_ .rv32 0x00100093#32 [] 0x8000FFFC) .running 0x80010000 [(1, 1)] = true := by decide
theorem test_illegal_word : ends (at_ .rv32 0x00000000#32 [(5, 7)]) (.halted .illegalInstruction) 0x80000000 [(5, 7)] = true := by
  decide
theorem test_illegal_before_data_bounds :
    ends (at_ .rv32 0x00037283#32 [(6, 0x10)]) (.halted .illegalInstruction) 0x80000000 [(6, 0x10)] = true := by decide
theorem test_load_fault_leaves_registers :
    ends (at_ .rv32 0x00032283#32 [(5, 9), (6, 0x10)]) (.halted .outOfBounds) 0x80000000 [(5, 9), (6, 0x10)] = true := by decide
theorem test_halted_is_final (k : XLen) : step ⟨k, (hartOf k [] 0x80000004 []).halt .illegalInstruction⟩ = .fault .illegalInstruction :=
  rfl
theorem test_rv64_store_at_xlen32 :
    ends (at_ .rv32 0xFE733E23#32 [(6, 0x80000104), (7, 0x55667788)]) (.halted .illegalInstruction) 0x80000000
      [(7, 0x55667788)] [(0x80000100, 0)] = true := by decide
/-- The run loop on program P4 of 95_test_vectors.md, from its third step call. -/
theorem test_run_loop_stops_at_a_fault :
    (drive ⟨true, none⟩ 3 ⟨.rv32, hartOf .rv32 [(1, 0x80000008)] 0x8000000A []⟩).1 = .faulted .misaligned := by decide

/-! ### Witnesses: for every obligation with hypotheses, states and operands that meet them, at the ends of their ranges -/

/-- Parameters with the four bytes of `ADDI x1, x0, 5` at the start of the window and two bytes at its end. -/
def loadedParams : Params where
  xlen    := .rv32
  memBase := 0x80000000
  memSize := 0x10000
  resetPc := 0x80000000#32
  initX   := Vector.replicate 31 7#32
  image   := [⟨0x80000000, [0x93#8, 0x00#8, 0x50#8, 0x00#8]⟩, ⟨0x8000FFFE, [0x01#8, 0x02#8]⟩]

theorem witness_reset_image :
    loadedParams.valid = true ∧ ⟨0x8000FFFE, [0x01#8, 0x02#8]⟩ ∈ loadedParams.image
      ∧ (State.resetOf loadedParams).hart.mem.byte 0x8000FFFF = 0x02#8
      ∧ (∀ g ∈ loadedParams.image, ¬ (g.addr ≤ 0x80000004 ∧ 0x80000004 < g.addr + g.bytes.length))
      ∧ (State.resetOf loadedParams).hart.mem.byte 0x80000004 = 0x00#8 := by decide
theorem witness_reset_invariant : loadedParams.valid = true ∧ Params.named.valid = true := by decide
theorem test_reset_runs_the_loaded_program : ends (State.resetOf loadedParams) .running 0x80000004 [(1, 5), (2, 7)] = true := by
  decide
theorem test_params_refused :
    { loadedParams with memBase := 0xFFFF8000 }.valid = false ∧ { loadedParams with memSize := 0xFFFF }.valid = false
      ∧ { loadedParams with image := [⟨0x80000000, [1#8, 2#8]⟩, ⟨0x80000001, [3#8]⟩] }.valid = false := by decide

/-- A window of 65536 bytes with the spec's load bytes in it. -/
def sampleMemory : Memory := ⟨0x80000000, 0x10000, loadBytes⟩

theorem witness_memory_access :
    sampleMemory.wf = true ∧ sampleMemory.inBounds 0x80000000 1 = true ∧ sampleMemory.inBounds 0x8000FFFF 1 = true
      ∧ sampleMemory.inBounds 0x8000FFFC 4 = true ∧ sampleMemory.inBounds 0x8000FFFD 4 = false
      ∧ sampleMemory.inBounds 0x7FFFFFFF 1 = false ∧ sampleMemory.inBounds 0x80010000 1 = false := by decide
theorem witness_mem_read : sampleMemory.read 0x80000110 4 = some 0x84F3F2F1#32 ∧ sampleMemory.read 0x80010000 1 = none := by
  decide
theorem witness_canonical_memories :
    ∃ m' : Memory, sampleMemory.write 0x80000110 1 0xF1#8 = some m' ∧ sampleMemory.wf = true ∧ m'.wf = true
      ∧ sampleMemory.base = m'.base ∧ sampleMemory.size = m'.size ∧ m' = sampleMemory := by
  exact ⟨sampleMemory, by decide⟩
theorem test_wf_refuses :
    (⟨0, 16, [(3, 1#8), (2, 1#8)]⟩ : Memory).wf = false ∧ (⟨0, 16, [(3, 0#8)]⟩ : Memory).wf = false
      ∧ (⟨0, 16, [(16, 1#8)]⟩ : Memory).wf = false := by decide
theorem witness_lsu_load :
    1 ≤ 8 ∧ 8 * 8 ≤ XLen.rv64.bits ∧ sampleMemory.read (0x80000110#64).toNat 8 = some 0x8877665584F3F2F1#64
      ∧ 8 * 4 ≤ XLen.rv32.bits ∧ sampleMemory.read (0x8000FFFD#32).toNat 4 = none := by decide
theorem witness_store_then_load :
    sampleMemory.wf = true ∧ 8 ∈ [1, 2, 4, 8] ∧ 8 * 8 ≤ XLen.rv64.bits
      ∧ sampleMemory.inBounds (0x8000FFF8#64).toNat 8 = true ∧ sampleMemory.inBounds (0x80000000#64).toNat 1 = true := by
  decide

/-! #### The decoder -/

theorem witness_signed_immediates : 31 < XLen.rv32.bits ∧ 63 < XLen.rv64.bits ∧ 0 < XLen.rv32.bits := by decide
theorem witness_even_offsets :
    (0x1000#13)[0] = false ∧ (0x0FFE#13)[0] = false ∧ (0x100000#21)[0] = false ∧ (0x0FFFFE#21)[0] = false := by decide
theorem witness_upper_and_jal :
    opcodeOf 0x123452B7#32 = 0x37#7 ∧ opcodeOf 0xFFFFF297#32 = 0x17#7 ∧ opcodeOf 0xFF9FF0EF#32 = 0x6F#7 := by decide
theorem witness_round_trip :
    (Instr.jal 31 0x100000#21).wellFormed .rv32 = true ∧ (Instr.srai 31 0 63#6).wellFormed .rv64 = true
      ∧ decode .rv32 0xFFC080E7#32 = .legal (.jalr 1 1 0xFFC#12) ∧ decode .rv64 0x43F35293#32 = .legal (.srai 5 6 63#6) := by
  decide
theorem witness_opcode_rows :
    decode .rv64 0x407352BB#32 = .legal (.sraw 5 6 7) ∧ ⟨"SRAW", 0x4000503b, 0xfe00707f⟩ ∈ opcodeTable .rv64
      ∧ OpcodeRow.has ⟨"SRAW", 0x4000503b, 0xfe00707f⟩ 0x407352BB#32 = true := by decide
theorem witness_system_words :
    opcodeOf 0x00000073#32 = 0x73#7 ∧ opcodeOf 0x00100073#32 = 0x73#7
      ∧ opcodeOf 0x30200073#32 = 0x73#7 ∧ 0x30200073#32 ≠ 0x00000073#32 ∧ 0x30200073#32 ≠ 0x00100073#32
      ∧ opcodeOf 0x8FF2828F#32 = 0x0F#7 ∧ funct3Of 0x8FF2828F#32 = 0b000#3
      ∧ opcodeOf 0x0000100F#32 = 0x0F#7 ∧ funct3Of 0x0000100F#32 ≠ 0b000#3 := by decide
theorem witness_unlisted_words :
    (0x00000001#32).extractLsb' 0 2 ≠ 0b11#2
      ∧ (opcodeOf 0x027302B3#32 = 0x33#7 ∧ funct7Of 0x027302B3#32 = 0b0000001#7)
      ∧ (opcodeOf 0x01036283#32 = 0x03#7 ∧ funct3Of 0x01036283#32 = 0b110#3)
      ∧ (opcodeOf 0x01037283#32 = 0x03#7 ∧ funct3Of 0x01037283#32 = 0b111#3)
      ∧ (opcodeOf 0x00732863#32 = 0x63#7 ∧ funct3Of 0x00732863#32 = 0b010#3)
      ∧ (opcodeOf 0x00733863#32 = 0x63#7 ∧ funct3Of 0x00733863#32 = 0b011#3)
      ∧ (opcodeOf 0x000290E7#32 = 0x67#7 ∧ funct3Of 0x000290E7#32 ≠ 0b000#3)
      ∧ opcodeOf 0x0013029B#32 = 0x1B#7 ∧ opcodeOf 0x007302BB#32 = 0x3B#7 := by decide

/-! #### Steps and faults -/

/-- The hart of `at_`. -/
def hartAt (k : XLen) (w : BitVec 32) (regs : List (Reg × Nat)) (pc : Nat := 0x80000000) : Hart k :=
  (hartOf k regs pc []).placeWord w

theorem witness_step_legal :
    (hartAt .rv32 0x00500093#32 []).run = .running ∧ (hartAt .rv32 0x00500093#32 []).pc.toNat % 4 = 0
      ∧ (hartAt .rv32 0x00500093#32 []).mem.read (hartAt .rv32 0x00500093#32 []).pc.toNat 4 = some 0x00500093#32
      ∧ decode .rv32 0x00500093#32 = .legal (.addi 1 0 5#12) := by decide
theorem witness_step_illegal :
    (hartAt .rv32 0xFFFFFFFF#32 [] 0x8000FFFC).run = .running ∧ (hartAt .rv32 0xFFFFFFFF#32 [] 0x8000FFFC).pc.toNat % 4 = 0
      ∧ (hartAt .rv32 0xFFFFFFFF#32 [] 0x8000FFFC).mem.read (hartAt .rv32 0xFFFFFFFF#32 [] 0x8000FFFC).pc.toNat 4
        = some 0xFFFFFFFF#32
      ∧ decode .rv32 0xFFFFFFFF#32 = .illegal .opcode := by decide
theorem witness_step_misaligned :
    (hartOf .rv32 [] 0x8000FFFE []).run = .running ∧ (hartOf .rv32 [] 0x8000FFFE []).pc.toNat % 4 ≠ 0 := by decide
theorem witness_step_out_of_bounds :
    (hartOf .rv32 [] 0x80010000 []).run = .running ∧ (hartOf .rv32 [] 0x80010000 []).pc.toNat % 4 = 0
      ∧ (hartOf .rv32 [] 0x80010000 []).mem.read (hartOf .rv32 [] 0x80010000 []).pc.toNat 4 = none := by decide
theorem witness_halted : ((hartOf .rv64 [] 0 []).halt .misaligned).run = .halted .misaligned := rfl
theorem witness_faulting_step :
    ∃ t, step ⟨.rv32, hartAt .rv32 0x00032283#32 [(6, 0x10)]⟩ = .next ⟨.rv32, t⟩ ∧ t.run = .halted .outOfBounds :=
  ⟨_, rfl, rfl⟩
/-- A data access outside the window is one of the cases of the fault statement. -/
theorem witness_data_out_of_bounds :
    decode .rv32 0x00032283#32 = .legal (.lw 5 6 0#12) ∧ (Instr.lw 5 6 0#12).loads = some (4, 6, 0#12)
      ∧ (hartAt .rv32 0x00032283#32 [(6, 0x10)]).mem.inBounds
          ((hartAt .rv32 0x00032283#32 [(6, 0x10)]).reg 6 + sext .rv32 0#12).toNat 4 = false := by decide
/-- JALR (V-J9) and JAL (V-J6) to targets that are 2 modulo 4. -/
theorem witness_misaligned_jump :
    (hartOf .rv32 [(5, 0x80000200)] 0x80000100 []).run = .running
      ∧ ((hartOf .rv32 [(5, 0x80000200)] 0x80000100 []).jalrTarget 5 3#12).toNat % 4 ≠ 0
      ∧ ((hartOf .rv32 [(5, 0x80000200)] 0x80000100 []).jalTarget 2#21).toNat % 4 ≠ 0 := by decide
/-- Branches to targets that are 2 modulo 4, the smallest and the largest such offset (V-B17, V-B19), each condition holding:
BEQ on x0 and x0; BNE, BGE and BLTU on the first hart; BLT and BGEU on the second. -/
theorem witness_misaligned_branch :
    let m := hartOf .rv32 [(6, 1), (7, 0xFFFFFFFF)] 0x80001000 []
    let n := hartOf .rv32 [(6, 0xFFFFFFFF), (7, 1)] 0x80001000 []
    (m.run = .running ∧ (m.branchTarget 2#13).toNat % 4 ≠ 0 ∧ (m.branchTarget 4094#13).toNat % 4 ≠ 0
      ∧ (m.reg 0).toNat = (m.reg 0).toNat ∧ (m.reg 6).toNat ≠ (m.reg 7).toNat ∧ (m.reg 7).toInt ≤ (m.reg 6).toInt
      ∧ (m.reg 6).toNat < (m.reg 7).toNat)
    ∧ n.run = .running ∧ (n.branchTarget 6#13).toNat % 4 ≠ 0
      ∧ (n.reg 6).toInt < (n.reg 7).toInt ∧ (n.reg 7).toNat ≤ (n.reg 6).toNat := by decide
/-- V-B19 and V-J6: the target is written to the pc, with no check. -/
theorem test_misaligned_branch_target : ends (at_ .rv32 0x00000363#32 [] 0x80001000) .running 0x80001006 [] = true := by decide
theorem test_misaligned_jal_target : ends (at_ .rv32 0x002000EF#32 [] 0x80001000) .running 0x80001002 [(1, 0x80001004)] = true := by
  decide
theorem witness_next_fetch :
    (hartOf .rv32 [(6, 0x80000004)] 0x80000000 []).mem.wf = true
      ∧ (hartOf .rv32 [(6, 0x80000004)] 0x80000000 []).pc.toNat % 4 = 0
      ∧ ((hartOf .rv32 [(6, 0x80000004)] 0x80000000 []).storeAddr 6 0#12).toNat = 0x80000004
      ∧ ((hartOf .rv32 [(6, 0x80000004)] 0x80000000 []).pc + 4#_).toNat = 0x80000004
      ∧ (hartOf .rv32 [(6, 0x80000004)] 0x80000000 []).mem.inBounds 0x80000004 4 = true := by decide

/-! #### Whole-machine rules -/

theorem witness_invariant_step :
    (at_ .rv64 0x00853023#32 [(8, 0x7FFFFFFF00000000), (10, 0x80001014)]).Inv
      ∧ (at_ .rv64 0x00853023#32 [(8, 0x7FFFFFFF00000000), (10, 0x80001014)]).PcEven
      ∧ ∃ t, step (at_ .rv64 0x00853023#32 [(8, 0x7FFFFFFF00000000), (10, 0x80001014)]) = .next t := by
  exact ⟨by decide, by decide, _, rfl⟩
/-- A form that stores nothing. -/
theorem witness_no_store :
    (hartAt .rv32 0x00500093#32 []).mem.wf = true ∧ (hartAt .rv32 0x00500093#32 []).Fetches 0x00500093#32
      ∧ decode .rv32 0x00500093#32 = .legal (.addi 1 0 5#12) ∧ (Instr.addi 1 0 5#12).stores = none
      ∧ (Instr.addi 1 0 5#12).controls = false
      ∧ ∃ t, step ⟨.rv32, hartAt .rv32 0x00500093#32 []⟩ = .next ⟨.rv32, t⟩ ∧ t.run = .running
        ∧ t.reg 1 ≠ (hartAt .rv32 0x00500093#32 []).reg 1 := by
  exact ⟨by decide, by decide, by decide, rfl, rfl, _, rfl, rfl, by decide⟩
/-- A form that stores, into the last four bytes of the window, and the addresses on both sides. -/
theorem witness_store :
    (hartAt .rv32 0xFE732E23#32 [(6, 0x80010000)]).mem.wf = true
      ∧ (hartAt .rv32 0xFE732E23#32 [(6, 0x80010000)]).Fetches 0xFE732E23#32
      ∧ decode .rv32 0xFE732E23#32 = .legal (.sw 6 7 0xFFC#12) ∧ (Instr.sw 6 7 0xFFC#12).stores = some (4, 6, 0xFFC#12)
      ∧ ((hartAt .rv32 0xFE732E23#32 [(6, 0x80010000)]).storeAddr 6 0xFFC#12).toNat = 0x8000FFFC
      ∧ ∃ t, step ⟨.rv32, hartAt .rv32 0xFE732E23#32 [(6, 0x80010000)]⟩ = .next ⟨.rv32, t⟩ := by
  exact ⟨by decide, by decide, by decide, rfl, by decide, _, rfl⟩
/-- Each way the run loop stops, but for the refusal that never comes. -/
theorem witness_run_loop :
    (drive ⟨true, none⟩ 3 (at_ .rv32 0x001280E7#32 [(5, 0xFFFFFFFF)] 0x80000100)).1 = .pcZero
      ∧ (drive ⟨false, some 1⟩ 3 (at_ .rv32 0x0000006F#32 [])).1 = .stepLimit
      ∧ (drive ⟨false, none⟩ 1 (at_ .rv32 0x0000006F#32 [])).1 = .callsUsed
      ∧ (drive ⟨true, some 9⟩ 3 (at_ .rv32 0x00000000#32 [])).1 = .faulted .illegalInstruction
      ∧ (at_ .rv32 0x00000000#32 []).hart.run = .running := by decide

/-! #### Results -/

theorem witness_immediate_shifts : (31#6).toNat < XLen.rv32.bits ∧ (63#6).toNat < XLen.rv64.bits ∧ (0#6).toNat < XLen.rv32.bits := by
  decide
theorem witness_rv64_only :
    Instr.sraw 5 6 7 ∈ [.ld 5 6 0#12, .sd 6 7 0#12, .addiw 5 6 0#12, .slliw 5 6 0#5, .srliw 5 6 0#5, .sraiw 5 6 0#5,
        .addw 5 6 7, .subw 5 6 7, .sllw 5 6 7, .srlw 5 6 7, .sraw 5 6 7]
      ∧ (32 ≤ (32#6).toNat ∧ Instr.srai 5 6 32#6 ∈ [.slli 5 6 32#6, .srli 5 6 32#6, .srai 5 6 32#6])
      ∧ 32 ≤ (63#6).toNat := by decide
theorem witness_upper_halves :
    (∀ r : Reg, ((hartOf .rv64 [(6, 0xFFFFFFFF00000001)] 0x80000000 []).reg r).setWidth 32
        = ((hartOf .rv64 [(6, 0x0000000000000001)] 0x80000000 []).reg r).setWidth 32)
      ∧ (∃ t, exec (.addw 5 6 7) ⟨.rv64, hartOf .rv64 [(6, 0xFFFFFFFF00000001)] 0x80000000 []⟩ = .next ⟨.rv64, t⟩)
      ∧ ∃ t, exec (.addw 5 6 7) ⟨.rv64, hartOf .rv64 [(6, 0x0000000000000001)] 0x80000000 []⟩ = .next ⟨.rv64, t⟩ := by
  exact ⟨by decide, ⟨_, rfl⟩, _, rfl⟩
/-- Registers on which each branch condition of the PC-relative statement holds, equal operands included. -/
theorem witness_branch_conditions :
    ((hartOf .rv32 [(6, 3), (7, 3)] 0 []).reg 6).toNat = ((hartOf .rv32 [(6, 3), (7, 3)] 0 []).reg 7).toNat
      ∧ ((hartOf .rv32 [(6, 3), (7, 4)] 0 []).reg 6).toNat ≠ ((hartOf .rv32 [(6, 3), (7, 4)] 0 []).reg 7).toNat
      ∧ ((hartOf .rv32 [(6, 0xFFFFFFFF), (7, 1)] 0 []).reg 6).toInt < ((hartOf .rv32 [(6, 0xFFFFFFFF), (7, 1)] 0 []).reg 7).toInt
      ∧ ((hartOf .rv32 [(6, 1), (7, 0xFFFFFFFF)] 0 []).reg 7).toInt ≤ ((hartOf .rv32 [(6, 1), (7, 0xFFFFFFFF)] 0 []).reg 6).toInt
      ∧ ((hartOf .rv32 [(6, 1), (7, 0xFFFFFFFF)] 0 []).reg 6).toNat < ((hartOf .rv32 [(6, 1), (7, 0xFFFFFFFF)] 0 []).reg 7).toNat
      ∧ ((hartOf .rv32 [(6, 3), (7, 3)] 0 []).reg 7).toNat ≤ ((hartOf .rv32 [(6, 3), (7, 3)] 0 []).reg 6).toNat := by decide
theorem witness_jalr_old_register : (1 : Reg) ≠ 0 := by decide
/-- Loads and stores at the two ends of the window, inside and outside, at each width. -/
theorem witness_access_inside :
    (hartOf .rv64 [(6, 0x80010000)] 0 []).mem.wf = true
      ∧ (hartOf .rv64 [(6, 0x80010000)] 0 []).mem.inBounds ((hartOf .rv64 [(6, 0x80010000)] 0 []).loadAddr 6 0xFFF#12).toNat 1 = true
      ∧ (hartOf .rv64 [(6, 0x80010000)] 0 []).mem.inBounds ((hartOf .rv64 [(6, 0x80010000)] 0 []).loadAddr 6 0xFFE#12).toNat 2 = true
      ∧ (hartOf .rv64 [(6, 0x80010000)] 0 []).mem.inBounds ((hartOf .rv64 [(6, 0x80010000)] 0 []).loadAddr 6 0xFFC#12).toNat 4 = true
      ∧ (hartOf .rv64 [(6, 0x80010000)] 0 []).mem.inBounds ((hartOf .rv64 [(6, 0x80010000)] 0 []).storeAddr 6 0xFF8#12).toNat 8 = true
      ∧ (hartOf .rv64 [(6, 0x80000000)] 0 []).mem.inBounds ((hartOf .rv64 [(6, 0x80000000)] 0 []).storeAddr 6 0#12).toNat 1 = true := by
  decide
theorem witness_access_outside :
    (hartOf .rv64 [(6, 0x80010000)] 0 []).mem.inBounds ((hartOf .rv64 [(6, 0x80010000)] 0 []).loadAddr 6 0#12).toNat 1 = false
      ∧ (hartOf .rv64 [(6, 0x80010000)] 0 []).mem.inBounds ((hartOf .rv64 [(6, 0x80010000)] 0 []).loadAddr 6 0xFFF#12).toNat 2 = false
      ∧ (hartOf .rv64 [(6, 0x80010000)] 0 []).mem.inBounds ((hartOf .rv64 [(6, 0x80010000)] 0 []).loadAddr 6 0xFFD#12).toNat 4 = false
      ∧ (hartOf .rv64 [(6, 0x80010000)] 0 []).mem.inBounds ((hartOf .rv64 [(6, 0x80010000)] 0 []).storeAddr 6 0xFF9#12).toNat 8 = false
      ∧ (hartOf .rv64 [(6, 0x80000000)] 0 []).mem.inBounds ((hartOf .rv64 [(6, 0x80000000)] 0 []).storeAddr 6 0xFFF#12).toNat 1 = false := by
  decide

end Sys2Proof.Tests
end

section
/-! The statements about registers, the pc and the host's view (10_state.md). -/

namespace Sys2Proof.Machine

/-- R32: the read port hard-wires x0, whatever its slot holds. -/
@[simp] theorem Hart.reg_zero {k : XLen} (m : Hart k) : m.reg 0 = 0#_ := if_pos rfl

/-- Settles O4: the read port's own law at x0. -/
theorem zeroRegisterReadsZero : Obligations.ZeroRegisterReadsZero :=
  fun _ m => m.reg_zero

end Sys2Proof.Machine
end

section
/-! The statements about memory and the load-store unit (20_memory.md). -/

namespace Sys2Proof.Machine

/-- LSULoad passes MemRead's OutOfBounds on (R78). -/
theorem lsuLoad_of_read_none {k : XLen} {mem : Memory} {addr : Word k} {n : Nat} (h : mem.read addr.toNat n = none)
    (signed : Bool) : lsuLoad mem addr n signed = none := by
  simp [lsuLoad, h]

/-- LSULoad widens the value MemRead gives (R78). -/
theorem lsuLoad_of_read_some {k : XLen} {mem : Memory} {addr : Word k} {n : Nat} {v : BitVec (8 * n)}
    (h : mem.read addr.toNat n = some v) (signed : Bool) :
    lsuLoad mem addr n signed = some (if signed then sext k v else zext k v) := by
  simp [lsuLoad, h]

/-- Settles O8: the read law inside the window and the one outside. -/
theorem memReadAssemblesLittleEndian : Obligations.MemReadAssemblesLittleEndian :=
  fun _ _ _ => ⟨Memory.read_of_not_inBounds, Memory.read_of_inBounds⟩

/-- Settles O9: a write inside the window succeeds, and the law of every byte after it, read at the stored addresses and at
the others. -/
theorem memWriteStoresLittleEndianOrNothing : Obligations.MemWriteStoresLittleEndianOrNothing := by
  intro m a n v hwf
  refine ⟨Memory.write_of_not_inBounds, fun hin => ?_⟩
  have hw : m.write a n v = some (m.put a (leBytes n v.toNat)) := Memory.write_of_inBounds hin
  refine ⟨_, hw, Memory.put_base .., Memory.put_size .., fun j hj => ?stored, fun y hy => ?frame⟩
  case stored =>
    rw [Memory.write_byte hwf hw, if_pos (by omega), Nat.add_sub_cancel_left]
  case frame =>
    rw [Memory.write_byte hwf hw, if_neg (by omega)]

/-- Settles O7: both accesses succeed exactly when `inBounds` holds, which is the comparison over natural numbers. -/
theorem accessSucceedsExactlyInsideTheWindow : Obligations.AccessSucceedsExactlyInsideTheWindow := by
  intro m a n
  refine ⟨m.inBounds_iff a n, ?_, fun v => ?_⟩
  · rw [Memory.read_isSome, Memory.inBounds_iff]
  · rw [Memory.write_isSome, Memory.inBounds_iff]

/-- Settles O11: the load's value is the extension of the one read, and each extension keeps its value where the width has
room for it. -/
theorem lsuLoadWidensWhatMemReadGives : Obligations.LsuLoadWidensWhatMemReadGives := by
  intro k m addr n _ hn
  refine ⟨lsuLoad_of_read_none, fun v hv => ⟨?signed, ?unsigned⟩⟩
  case signed => exact ⟨sext k v, lsuLoad_of_read_some hv true, sext_toInt v hn⟩
  case unsigned => exact ⟨zext k v, lsuLoad_of_read_some hv false, zext_toNat v hn⟩

/-- Settles O12: the stored value is the data cut to `8n` bits. -/
theorem lsuStoreWritesTheLowBits : Obligations.LsuStoreWritesTheLowBits := by
  intro k m addr data n _
  refine ⟨data.setWidth (8 * n), fun j hj => ?_, rfl⟩
  rw [BitVec.getLsbD_setWidth, decide_eq_true hj, Bool.true_and]

end Sys2Proof.Machine
end

section
/-! The statements about the decoder's fields and its opcodes (30_encoding.md). -/

namespace Sys2Proof

/-- A field of `len` bits from bit `start` on holds the word's bits of those positions (R111). -/
theorem field_getLsbD (w : BitVec 32) (start : Nat) {len j : Nat} (hj : j < len) :
    (w.extractLsb' start len).getLsbD j = w.getLsbD (start + j) := by
  rw [BitVec.getLsbD_extractLsb', decide_eq_true hj, Bool.true_and]

/-- The number of a register field has the word's bits of the field's positions (R111). -/
theorem regField_testBit (w : BitVec 32) (start : Nat) {j : Nat} (hj : j < 5) :
    (w.extractLsb' start 5).toFin.val.testBit j = w.getLsbD (start + j) :=
  field_getLsbD w start hj

/-- Settles O15: each field of the decoder's output is the word's field of that place and size, and a field holds the word's
bits. -/
theorem decoderFieldsStandAtTheirPositions : Obligations.DecoderFieldsStandAtTheirPositions := by
  intro k w
  refine ⟨fun j hj => ?opcode, fun _ => regField_testBit w 7, fun _ => field_getLsbD w 12,
    fun _ => regField_testBit w 15, fun _ => regField_testBit w 20, fun _ => field_getLsbD w 25⟩
  case opcode => exact (field_getLsbD w 0 hj).trans (by rw [Nat.zero_add])

section
variable {w : BitVec 32} (k : XLen)

/-- Every word of opcode LUI is of class LUI (R137). -/
theorem decode_of_opcode_lui (h : opcodeOf w = 0x37#7) : decode k w = .legal (.lui (rdOf w) (bitsU w)) := by
  simp only [decode, h]

/-- Every word of opcode AUIPC is of class AUIPC (R137). -/
theorem decode_of_opcode_auipc (h : opcodeOf w = 0x17#7) : decode k w = .legal (.auipc (rdOf w) (bitsU w)) := by
  simp only [decode, h]

/-- Every word of opcode JAL is of class JAL (R137). -/
theorem decode_of_opcode_jal (h : opcodeOf w = 0x6F#7) : decode k w = .legal (.jal (rdOf w) (bitsJ w)) := by
  simp only [decode, h]

end

/-- Settles O19: the decoder's three cases that test the opcode and nothing else. -/
theorem upperAndJalAreSelectedByOpcodeAlone : Obligations.UpperAndJalAreSelectedByOpcodeAlone :=
  fun k _ => ⟨decode_of_opcode_lui k, decode_of_opcode_auipc k, decode_of_opcode_jal k⟩

end Sys2Proof
end

section
/-! The statement about PC-relative values and links (40_execution_cycle.md R164). -/

namespace Sys2Proof.Machine

section
variable {k : XLen} {i : Instr} {m : Hart k}

/-- An instruction whose commit (R165) is a register write and a new pc completes with them: the register file's write law
and its frame. -/
theorem completes_of_setReg_setPc {rd : Reg} {v a : Word k}
    (h : exec i ⟨k, m⟩ = retire ⟨k, m⟩ ((m.setReg rd v).setPc a)) : Completes i m (some rd) v a :=
  ⟨_, h, fun r => by simp [Hart.setReg_reg], rfl, by simp [SameMemory], by simp⟩

/-- An instruction whose commit (R165) is a new pc alone completes with no register written. -/
theorem completes_of_setPc {v a : Word k} (h : exec i ⟨k, m⟩ = retire ⟨k, m⟩ (m.setPc a)) : Completes i m none v a :=
  ⟨_, h, fun r => by simp, rfl, by simp [SameMemory], rfl⟩

/-- A branch whose condition holds completes at `A + imm_B` (R163). -/
theorem completes_of_branchIf_taken {c : Cond} {rs1 rs2 : Reg} {imm : BitVec 13} {v : Word k}
    (h : exec i ⟨k, m⟩ = branchIf c rs1 rs2 imm ⟨k, m⟩) (hc : c.holds (m.reg rs1) (m.reg rs2) = true) :
    Completes i m none v (m.pc + immB k imm) := by
  rw [branchIf_eq, if_pos hc] at h
  exact completes_of_setPc h

variable {a b : Word k}

@[simp] theorem Cond.eq_holds : Cond.eq.holds a b = true ↔ a = b := beq_iff_eq
@[simp] theorem Cond.ne_holds : Cond.ne.holds a b = true ↔ a ≠ b := bne_iff_ne
@[simp] theorem Cond.lt_holds : Cond.lt.holds a b = true ↔ a.toInt < b.toInt := decide_eq_true_iff
@[simp] theorem Cond.ge_holds : Cond.ge.holds a b = true ↔ b.toInt ≤ a.toInt := by simp [Cond.holds, ltS]
@[simp] theorem Cond.ltu_holds : Cond.ltu.holds a b = true ↔ a.toNat < b.toNat := decide_eq_true_iff
@[simp] theorem Cond.geu_holds : Cond.geu.holds a b = true ↔ b.toNat ≤ a.toNat := by simp [Cond.holds, ltU]

end

/-- Settles O50: each of the three writers commits a register and a pc computed from the old pc, and each branch, its
condition read off the comparator, commits the target alone. -/
theorem pcRelativeValuesUseTheInstructionsAddress : Obligations.PcRelativeValuesUseTheInstructionsAddress := by
  intro k m rd rs1 rs2 imm12 imm13 imm20 imm21
  refine ⟨?auipc, ?jal, ?jalr, fun h => ?beq, fun h => ?bne, fun h => ?blt, fun h => ?bge, fun h => ?bltu, fun h => ?bgeu⟩
  case auipc | jal | jalr => exact completes_of_setReg_setPc rfl
  case beq => exact completes_of_branchIf_taken rfl (Cond.eq_holds.mpr h)
  case bne => exact completes_of_branchIf_taken rfl (Cond.ne_holds.mpr h)
  case blt => exact completes_of_branchIf_taken rfl (Cond.lt_holds.mpr h)
  case bge => exact completes_of_branchIf_taken rfl (Cond.ge_holds.mpr h)
  case bltu => exact completes_of_branchIf_taken rfl (Cond.ltu_holds.mpr h)
  case bgeu => exact completes_of_branchIf_taken rfl (Cond.geu_holds.mpr h)

end Sys2Proof.Machine
end

section
/-! The round trip of encoder and decoder (30_encoding.md 2, 4 and 5). -/

namespace Sys2Proof

/-! ### The decoder by opcode (R125) -/

section
variable {w : BitVec 32} (k : XLen)

theorem decode_of_opcode_load (h : opcodeOf w = 0x03#7) : decode k w = decodeLoad k w := by simp only [decode, h]
theorem decode_of_opcode_store (h : opcodeOf w = 0x23#7) : decode k w = decodeStore k w := by simp only [decode, h]
theorem decode_of_opcode_opImm (h : opcodeOf w = 0x13#7) : decode k w = decodeOpImm k w := by simp only [decode, h]
theorem decode_of_opcode_opImm32 (h : opcodeOf w = 0x1B#7) : decode .rv64 w = decodeOpImm32 w := by simp only [decode, h]
theorem decode_of_opcode_op (h : opcodeOf w = 0x33#7) : decode k w = decodeOp w := by simp only [decode, h]
theorem decode_of_opcode_op32 (h : opcodeOf w = 0x3B#7) : decode .rv64 w = decodeOp32 w := by simp only [decode, h]
theorem decode_of_opcode_branch (h : opcodeOf w = 0x63#7) : decode k w = decodeBranch w := by simp only [decode, h]
theorem decode_of_opcode_jalr (h : opcodeOf w = 0x67#7) : decode k w = decodeJalr w := by simp only [decode, h]
theorem decode_of_opcode_system (h : opcodeOf w = 0x73#7) : decode k w = decodeSystem w := by simp only [decode, h]
theorem decode_of_opcode_miscMem (h : opcodeOf w = 0x0F#7) : decode k w = decodeMiscMem w := by simp only [decode, h]

/-- At XLEN 32 no word of OP-IMM-32 or OP-32 is legal (R134, R136). -/
theorem decode_rv32_of_opcode_word (h : opcodeOf w = 0x1B#7 ∨ opcodeOf w = 0x3B#7) :
    decode .rv32 w = .illegal .rv64Only := by
  obtain h | h := h <;> simp only [decode, h]

end

@[simp] theorem at64_rv64 (i : Instr) : at64 .rv64 i = .legal i := rfl

/-! ### The fields of an encoded shift immediate (R123) -/

section
variable (sel sh : BitVec 6) (f7 : BitVec 7) (sh5 : BitVec 5) (rs1 : Reg) (f3 : BitVec 3) (rd : Reg)

theorem encShift_opcode : opcodeOf (encShift sel sh rs1 f3 rd) = 0x13#7 := encI_opcode ..
theorem encShift_funct3 : funct3Of (encShift sel sh rs1 f3 rd) = f3 := encI_funct3 ..
theorem encShift_rd : rdOf (encShift sel sh rs1 f3 rd) = rd := encI_rd ..
theorem encShift_rs1 : rs1Of (encShift sel sh rs1 f3 rd) = rs1 := encI_rs1 ..

/-- At both widths: the selector and the amount of an OP-IMM shift whose amount has a place in the word (R123). -/
theorem shiftFields_encShift {k : XLen} (h : (k == .rv64 || !sh[5]) = true) :
    shiftFields k (encShift sel sh rs1 f3 rd) = (sel ++ 0#1, sh) := by
  cases k with
  | rv32 => exact shiftFields_encShift_rv32 sel sh rs1 f3 rd (by simpa using h)
  | rv64 => exact shiftFields_encShift_rv64 sel sh rs1 f3 rd

theorem encShiftW_opcode : opcodeOf (encShiftW f7 sh5 rs1 f3 rd) = 0x1B#7 := encI_opcode ..
theorem encShiftW_funct3 : funct3Of (encShiftW f7 sh5 rs1 f3 rd) = f3 := encI_funct3 ..
theorem encShiftW_rd : rdOf (encShiftW f7 sh5 rs1 f3 rd) = rd := encI_rd ..
theorem encShiftW_rs1 : rs1Of (encShiftW f7 sh5 rs1 f3 rd) = rs1 := encI_rs1 ..

end

/-! ### Decode of encode -/

theorem eq_rv64_of_beq {k : XLen} (h : (k == .rv64) = true) : k = .rv64 := beq_iff_eq.mp h

/-- Settles O21: the word's opcode selects the class, its funct3 and funct7 the instruction, and each operand is the field its
format put there. Well-formedness gives XLEN 64 where the row asks for it, an amount that has a place, and an even offset. -/
theorem decodeOfEncodedInstructionIsTheInstruction : Obligations.DecodeOfEncodedInstructionIsTheInstruction := by
  intro k i hwf
  cases i with
  | lb | lh | lw | lbu | lhu =>
    refine (decode_of_opcode_load k (encI_opcode ..)).trans ?_
    simp only [decodeLoad, encI_funct3, encI_rd, encI_rs1, encI_imm]
  | ld =>
    obtain rfl := eq_rv64_of_beq hwf
    refine (decode_of_opcode_load _ (encI_opcode ..)).trans ?_
    simp only [decodeLoad, encI_funct3, encI_rd, encI_rs1, encI_imm, at64_rv64]
  | sb | sh | sw =>
    refine (decode_of_opcode_store k (encS_opcode ..)).trans ?_
    simp only [decodeStore, encS_funct3, encS_rs1, encS_rs2, encS_imm]
  | sd =>
    obtain rfl := eq_rv64_of_beq hwf
    refine (decode_of_opcode_store _ (encS_opcode ..)).trans ?_
    simp only [decodeStore, encS_funct3, encS_rs1, encS_rs2, encS_imm, at64_rv64]
  | addi | slti | sltiu | xori | ori | andi =>
    refine (decode_of_opcode_opImm k (encI_opcode ..)).trans ?_
    simp only [decodeOpImm, encI_funct3, encI_rd, encI_rs1, encI_imm]
  | slli | srli | srai =>
    refine (decode_of_opcode_opImm k (encShift_opcode ..)).trans ?_
    simp only [decodeOpImm, encShift_funct3, encShift_rd, encShift_rs1, shiftFields_encShift _ _ _ _ _ hwf]
    rfl
  | addiw =>
    obtain rfl := eq_rv64_of_beq hwf
    refine (decode_of_opcode_opImm32 (encI_opcode ..)).trans ?_
    simp only [decodeOpImm32, encI_funct3, encI_rd, encI_rs1, encI_imm]
  | slliw | srliw | sraiw =>
    obtain rfl := eq_rv64_of_beq hwf
    refine (decode_of_opcode_opImm32 (encShiftW_opcode ..)).trans ?_
    simp only [decodeOpImm32, encShiftW_funct3, encShiftW_funct7, encShiftW_rd, encShiftW_rs1, encShiftW_shamt]
  | add | sub | sll | slt | sltu | xor | srl | sra | or | and =>
    refine (decode_of_opcode_op k (encR_opcode ..)).trans ?_
    simp only [decodeOp, decodeOpBase, decodeOpAlt, encR_funct3, encR_funct7, encR_rd, encR_rs1, encR_rs2]
  | addw | subw | sllw | srlw | sraw =>
    obtain rfl := eq_rv64_of_beq hwf
    refine (decode_of_opcode_op32 (encR_opcode ..)).trans ?_
    simp only [decodeOp32, encR_funct3, encR_funct7, encR_rd, encR_rs1, encR_rs2]
  | lui =>
    refine (decode_of_opcode_lui k (encU_opcode ..)).trans ?_
    simp only [encU_rd, encU_imm]
  | auipc =>
    refine (decode_of_opcode_auipc k (encU_opcode ..)).trans ?_
    simp only [encU_rd, encU_imm]
  | beq _ _ imm | bne _ _ imm | blt _ _ imm | bge _ _ imm | bltu _ _ imm | bgeu _ _ imm =>
    have h0 : imm[0] = false := by simpa [Instr.wellFormed] using hwf
    refine (decode_of_opcode_branch k (encB_opcode ..)).trans ?_
    simp only [decodeBranch, encB_funct3, encB_rs1, encB_rs2, encB_imm _ _ _ _ _ h0]
  | jalr =>
    refine (decode_of_opcode_jalr k (encI_opcode ..)).trans ?_
    simp only [decodeJalr, encI_funct3, encI_rd, encI_rs1, encI_imm]
  | jal _ imm =>
    have h0 : imm[0] = false := by simpa [Instr.wellFormed] using hwf
    refine (decode_of_opcode_jal k (encJ_opcode ..)).trans ?_
    simp only [encJ_rd, encJ_imm _ _ _ h0]
  | ecall | ebreak => cases k <;> rfl
  | fence fm pred succ rs1 rd =>
    obtain ⟨hfm, hpred, hsucc⟩ := encI_fence_fields fm pred succ rs1 0b000#3 rd 0x0F#7
    refine (decode_of_opcode_miscMem k (encI_opcode ..)).trans ?_
    simp only [decodeMiscMem, encI_funct3, encI_rd, encI_rs1, hfm, hpred, hsucc]

/-! ### Encode of decode: a word put together from its fields (R113 to R117) -/

theorem regBits_rdOf (w : BitVec 32) : regBits (rdOf w) = w.extractLsb' 7 5 := rfl
theorem regBits_rs1Of (w : BitVec 32) : regBits (rs1Of w) = w.extractLsb' 15 5 := rfl
theorem regBits_rs2Of (w : BitVec 32) : regBits (rs2Of w) = w.extractLsb' 20 5 := rfl

section
variable {w : BitVec 32} {o f7 : BitVec 7} {f3 : BitVec 3} (ho : opcodeOf w = o) (h3 : funct3Of w = f3) (h7 : funct7Of w = f7)

include ho h3 h7 in
theorem encR_of_fields : encR f7 (rs2Of w) (rs1Of w) f3 (rdOf w) o = w := by
  subst ho h3 h7
  refine BitVec.eq_of_getLsbD_eq fun i hi => ?_
  simp only [encR, funct7Of, funct3Of, opcodeOf, regBits_rdOf, regBits_rs1Of, regBits_rs2Of, BitVec.getLsbD_append,
    BitVec.getLsbD_extractLsb']
  interval_cases i <;> simp

include ho h3

theorem encI_of_fields : encI (bitsI w) (rs1Of w) f3 (rdOf w) o = w := by
  rw [bitsI_eq]
  exact encR_of_fields ho h3 rfl

theorem encS_of_fields : encS (bitsS w) (rs2Of w) (rs1Of w) f3 o = w := by
  subst ho h3
  refine BitVec.eq_of_getLsbD_eq fun i hi => ?_
  simp only [encS, bitsS, funct3Of, opcodeOf, regBits_rs1Of, regBits_rs2Of, BitVec.getLsbD_append,
    BitVec.getLsbD_extractLsb']
  interval_cases i <;> simp

theorem encB_of_fields : encB (bitsB w) (rs2Of w) (rs1Of w) f3 o = w := by
  subst ho h3
  refine BitVec.eq_of_getLsbD_eq fun i hi => ?_
  simp only [encB, bitsB, funct3Of, opcodeOf, regBits_rs1Of, regBits_rs2Of, BitVec.getLsbD_append,
    BitVec.getLsbD_extractLsb']
  interval_cases i <;> simp

end

section
variable {w : BitVec 32} {o : BitVec 7} (ho : opcodeOf w = o)
include ho

theorem encU_of_fields : encU (bitsU w) (rdOf w) o = w := by
  subst ho
  refine BitVec.eq_of_getLsbD_eq fun i hi => ?_
  simp only [encU, bitsU, opcodeOf, regBits_rdOf, BitVec.getLsbD_append, BitVec.getLsbD_extractLsb']
  interval_cases i <;> simp

theorem encJ_of_fields : encJ (bitsJ w) (rdOf w) o = w := by
  subst ho
  refine BitVec.eq_of_getLsbD_eq fun i hi => ?_
  simp only [encJ, bitsJ, opcodeOf, regBits_rdOf, BitVec.getLsbD_append, BitVec.getLsbD_extractLsb']
  interval_cases i <;> simp

end

theorem bitsB_zero (w : BitVec 32) : (bitsB w)[0] = false := by
  rw [← BitVec.getLsbD_eq_getElem, bitsB, BitVec.getLsbD_append]
  rfl

theorem bitsJ_zero (w : BitVec 32) : (bitsJ w)[0] = false := by
  rw [← BitVec.getLsbD_eq_getElem, bitsJ, BitVec.getLsbD_append]
  rfl

/-- An OP-IMM shift's selector and amount are the two parts of its I immediate, at both widths (R123). -/
theorem append_shiftFields {k : XLen} {w : BitVec 32} {sel : BitVec 6} (h : (shiftFields k w).1 = sel ++ 0#1) :
    sel ++ (shiftFields k w).2 = bitsI w := by
  have hbit (j : Nat) : (shiftFields k w).1.getLsbD j = if j < 1 then false else sel.getLsbD (j - 1) := by
    rw [h, BitVec.getLsbD_append, BitVec.getLsbD_zero]
  refine BitVec.eq_of_getLsbD_eq fun i hi => ?_
  have h0 := hbit 0
  have hi := hbit (i - 5)
  cases k <;>
  · simp only [shiftFields, funct7Of, bitsI, BitVec.getLsbD_append, BitVec.getLsbD_extractLsb'] at h0 hi ⊢
    interval_cases i <;> simp_all

/-- A row marked 64 is legal at XLEN 64 alone. -/
theorem at64_eq_legal {k : XLen} {i j : Instr} (h : at64 k i = .legal j) : k = .rv64 ∧ i = j := by
  cases k <;> cases h
  exact ⟨rfl, rfl⟩

/-! ### A legal word of each class is the encoding of the well-formed instruction it is read as -/

section
variable {k : XLen} {w : BitVec 32} {i : Instr}

theorem decodeLoad_legal (ho : opcodeOf w = 0x03#7) (h : decodeLoad k w = .legal i) :
    i.wellFormed k = true ∧ encode i = w := by
  unfold decodeLoad at h
  split at h
  case h_4 =>
    obtain ⟨rfl, rfl⟩ := at64_eq_legal h
    exact ⟨rfl, encI_of_fields ho ‹_›⟩
  all_goals cases h
  all_goals exact ⟨rfl, encI_of_fields ho ‹_›⟩

theorem decodeStore_legal (ho : opcodeOf w = 0x23#7) (h : decodeStore k w = .legal i) :
    i.wellFormed k = true ∧ encode i = w := by
  unfold decodeStore at h
  split at h
  case h_4 =>
    obtain ⟨rfl, rfl⟩ := at64_eq_legal h
    exact ⟨rfl, encS_of_fields ho ‹_›⟩
  all_goals cases h
  all_goals exact ⟨rfl, encS_of_fields ho ‹_›⟩

/-- The word of an OP-IMM shift is put together from the selector and the amount read from it, and the amount has a place at
the word's width (R123, R133). -/
theorem encShift_of_fields {sel : BitVec 6} {f3 : BitVec 3} (ho : opcodeOf w = 0x13#7) (h3 : funct3Of w = f3)
    (hs : (shiftFields k w).1 = sel ++ 0#1) :
    (k == .rv64 || !(shiftFields k w).2[5]) = true ∧ encShift sel (shiftFields k w).2 (rs1Of w) f3 (rdOf w) = w := by
  refine ⟨?fits, ?word⟩
  case fits =>
    cases k with
    | rv32 =>
      rw [← BitVec.getLsbD_eq_getElem, shiftFields, BitVec.getLsbD_append]
      rfl
    | rv64 => rfl
  case word =>
    rw [encShift, append_shiftFields hs]
    exact encI_of_fields ho h3

theorem decodeOpImm_legal (ho : opcodeOf w = 0x13#7) (h : decodeOpImm k w = .legal i) :
    i.wellFormed k = true ∧ encode i = w := by
  unfold decodeOpImm at h
  split at h
  case h_2 | h_6 =>
    split at h <;> cases h
    all_goals exact encShift_of_fields ho ‹_› ‹_›
  all_goals cases h
  all_goals exact ⟨rfl, encI_of_fields ho ‹_›⟩

/-- The word of an OP-IMM-32 shift is put together from funct7 and the amount read from it (R134). -/
theorem encShiftW_of_fields {f7 : BitVec 7} {f3 : BitVec 3} (ho : opcodeOf w = 0x1B#7) (h3 : funct3Of w = f3)
    (h7 : funct7Of w = f7) : encShiftW f7 (w.extractLsb' 20 5) (rs1Of w) f3 (rdOf w) = w := by
  rw [encShiftW, ← h7, ← bitsI_eq]
  exact encI_of_fields ho h3

theorem decodeOpImm32_legal (ho : opcodeOf w = 0x1B#7) (h : decodeOpImm32 w = .legal i) :
    i.wellFormed .rv64 = true ∧ encode i = w := by
  unfold decodeOpImm32 at h
  split at h
  case h_2 | h_3 =>
    split at h <;> cases h
    all_goals exact ⟨rfl, encShiftW_of_fields ho ‹_› ‹_›⟩
  all_goals cases h
  exact ⟨rfl, encI_of_fields ho ‹_›⟩

theorem decodeOp_legal (ho : opcodeOf w = 0x33#7) (h : decodeOp w = .legal i) :
    i.wellFormed k = true ∧ encode i = w := by
  unfold decodeOp decodeOpBase decodeOpAlt at h
  split at h
  case h_1 | h_2 =>
    split at h <;> cases h
    all_goals exact ⟨rfl, encR_of_fields ho ‹_› ‹_›⟩
  all_goals cases h

theorem decodeOp32_legal (ho : opcodeOf w = 0x3B#7) (h : decodeOp32 w = .legal i) :
    i.wellFormed .rv64 = true ∧ encode i = w := by
  unfold decodeOp32 at h
  split at h
  case h_1 | h_2 | h_3 =>
    split at h <;> cases h
    all_goals exact ⟨rfl, encR_of_fields ho ‹_› ‹_›⟩
  all_goals cases h

theorem decodeBranch_legal (ho : opcodeOf w = 0x63#7) (h : decodeBranch w = .legal i) :
    i.wellFormed k = true ∧ encode i = w := by
  have heven : (!(bitsB w)[0]) = true := by rw [bitsB_zero]; rfl
  unfold decodeBranch at h
  split at h <;> cases h
  all_goals exact ⟨heven, encB_of_fields ho ‹_›⟩

theorem decodeJalr_legal (ho : opcodeOf w = 0x67#7) (h : decodeJalr w = .legal i) :
    i.wellFormed k = true ∧ encode i = w := by
  unfold decodeJalr at h
  split at h <;> cases h
  exact ⟨rfl, encI_of_fields ho ‹_›⟩

theorem decodeSystem_legal (h : decodeSystem w = .legal i) : i.wellFormed k = true ∧ encode i = w := by
  unfold decodeSystem at h
  split at h <;> cases h
  all_goals exact ⟨rfl, rfl⟩

/-- FENCE's three fields are the parts of its I immediate (R322). -/
theorem fence_fields_append (w : BitVec 32) :
    w.extractLsb' 28 4 ++ w.extractLsb' 24 4 ++ w.extractLsb' 20 4 = bitsI w := by
  refine BitVec.eq_of_getLsbD_eq fun i hi => ?_
  simp only [bitsI, BitVec.getLsbD_append, BitVec.getLsbD_extractLsb']
  interval_cases i <;> simp

theorem decodeMiscMem_legal (ho : opcodeOf w = 0x0F#7) (h : decodeMiscMem w = .legal i) :
    i.wellFormed k = true ∧ encode i = w := by
  unfold decodeMiscMem at h
  split at h <;> cases h
  refine ⟨rfl, ?_⟩
  rw [encode, fence_fields_append]
  exact encI_of_fields ho ‹_›

end

/-- Settles O22: case by case of the opcode, the word is the class's format of the fields and immediates read from it. -/
theorem encodeOfDecodedWordIsTheWord : Obligations.EncodeOfDecodedWordIsTheWord := by
  intro k w i h
  unfold decode at h
  split at h
  case h_1 ho => exact decodeLoad_legal ho h
  case h_2 ho => exact decodeMiscMem_legal ho h
  case h_3 ho => exact decodeOpImm_legal ho h
  case h_4 ho => cases h; exact ⟨rfl, encU_of_fields ho⟩
  case h_5 ho =>
    cases k with
    | rv32 => cases h
    | rv64 => exact decodeOpImm32_legal ho h
  case h_6 ho => exact decodeStore_legal ho h
  case h_7 ho => exact decodeOp_legal ho h
  case h_8 ho => cases h; exact ⟨rfl, encU_of_fields ho⟩
  case h_9 ho =>
    cases k with
    | rv32 => cases h
    | rv64 => exact decodeOp32_legal ho h
  case h_10 ho => exact decodeBranch_legal ho h
  case h_11 ho => exact decodeJalr_legal ho h
  case h_12 ho => cases h; exact ⟨by simp [Instr.wellFormed, bitsJ_zero], encJ_of_fields ho⟩
  case h_13 => exact decodeSystem_legal h
  case h_14 => cases h

end Sys2Proof
end

section
/-! The opcode table (30_encoding.md 4; R127). -/

namespace Sys2Proof

/-! ### What the masks of the table keep of a word: its selecting fields -/

section
variable (w : BitVec 32)

theorem and_opcode_mask : w &&& 0x0000007f = 0#25 ++ opcodeOf w := by
  refine BitVec.eq_of_getLsbD_eq fun i hi => ?_
  simp only [opcodeOf, BitVec.getLsbD_append, BitVec.getLsbD_and, BitVec.getLsbD_extractLsb']
  interval_cases i <;> simp

theorem and_funct3_mask : w &&& 0x0000707f = 0#17 ++ funct3Of w ++ 0#5 ++ opcodeOf w := by
  refine BitVec.eq_of_getLsbD_eq fun i hi => ?_
  simp only [opcodeOf, funct3Of, BitVec.getLsbD_append, BitVec.getLsbD_and, BitVec.getLsbD_extractLsb']
  interval_cases i <;> simp

theorem and_funct7_mask : w &&& 0xfe00707f = funct7Of w ++ 0#10 ++ funct3Of w ++ 0#5 ++ opcodeOf w := by
  refine BitVec.eq_of_getLsbD_eq fun i hi => ?_
  simp only [opcodeOf, funct3Of, funct7Of, BitVec.getLsbD_append, BitVec.getLsbD_and, BitVec.getLsbD_extractLsb']
  interval_cases i <;> simp

theorem and_selector_mask : w &&& 0xfc00707f = w.extractLsb' 26 6 ++ 0#11 ++ funct3Of w ++ 0#5 ++ opcodeOf w := by
  refine BitVec.eq_of_getLsbD_eq fun i hi => ?_
  simp only [opcodeOf, funct3Of, BitVec.getLsbD_append, BitVec.getLsbD_and, BitVec.getLsbD_extractLsb']
  interval_cases i <;> simp

end

/-! ### Every encoded instruction stands in a row -/

/-- The bits that select the instruction at width `k`: those of the opcode, of funct3 and of funct7 or the shift selector where
the instruction has them, and for ECALL and EBREAK the whole word (R127). -/
def Instr.mask (k : XLen) : Instr → BitVec 32
  | .lui _ _ | .auipc _ _ | .jal _ _ => 0x0000007f
  | .ecall | .ebreak => 0xffffffff
  | .slli _ _ _ | .srli _ _ _ | .srai _ _ _ =>
    match k with
    | .rv32 => 0xfe00707f
    | .rv64 => 0xfc00707f
  | .slliw _ _ _ | .srliw _ _ _ | .sraiw _ _ _ => 0xfe00707f
  | .add _ _ _ | .sub _ _ _ | .sll _ _ _ | .slt _ _ _ | .sltu _ _ _ => 0xfe00707f
  | .xor _ _ _ | .srl _ _ _ | .sra _ _ _ | .or _ _ _ | .and _ _ _ => 0xfe00707f
  | .addw _ _ _ | .subw _ _ _ | .sllw _ _ _ | .srlw _ _ _ | .sraw _ _ _ => 0xfe00707f
  | .lb _ _ _ | .lh _ _ _ | .lw _ _ _ | .ld _ _ _ | .lbu _ _ _ | .lhu _ _ _ => 0x0000707f
  | .sb _ _ _ | .sh _ _ _ | .sw _ _ _ | .sd _ _ _ => 0x0000707f
  | .addi _ _ _ | .slti _ _ _ | .sltiu _ _ _ | .xori _ _ _ | .ori _ _ _ | .andi _ _ _ | .addiw _ _ _ => 0x0000707f
  | .beq _ _ _ | .bne _ _ _ | .blt _ _ _ | .bge _ _ _ | .bltu _ _ _ | .bgeu _ _ _ => 0x0000707f
  | .jalr _ _ _ | .fence _ _ _ _ _ => 0x0000707f

/-- The row of the opcode table that the instruction belongs to (`Instr.row_mem_opcodeTable`). -/
def Instr.row (k : XLen) (i : Instr) : OpcodeRow := ⟨i.mnemonic, encode i &&& i.mask k, i.mask k⟩

theorem Instr.row_has_encode (k : XLen) (i : Instr) : (i.row k).has (encode i) = true := beq_self_eq_true _

/-- `inst[31:26]` of an OP-IMM shift is its selector (R123). -/
theorem selector_encShift (sel sh : BitVec 6) (rs1 : Reg) (f3 : BitVec 3) (rd : Reg) :
    (encShift sel sh rs1 f3 rd).extractLsb' 26 6 = sel := by
  have h := congrArg Prod.fst (shiftFields_encShift_rv64 sel sh rs1 f3 rd)
  exact (BitVec.append_left_inj ..).mp h

/-- At XLEN 32 funct7 of an OP-IMM shift is its selector and a zero (R133). -/
theorem funct7_encShift (sel sh : BitVec 6) (rs1 : Reg) (f3 : BitVec 3) (rd : Reg)
    (h : (XLen.rv32 == .rv64 || !sh[5]) = true) : funct7Of (encShift sel sh rs1 f3 rd) = sel ++ 0#1 :=
  congrArg Prod.fst (shiftFields_encShift sel sh rs1 f3 rd h)

/-- The selecting bits of an encoded instruction are constants, and with its mnemonic they are a row of the table. -/
theorem Instr.row_mem_opcodeTable {k : XLen} {i : Instr} (h : i.wellFormed k = true) : i.row k ∈ opcodeTable k := by
  unfold Instr.row
  cases i with
  | lb | lh | lw | lbu | lhu | addi | slti | sltiu | xori | ori | andi | jalr | fence =>
    simp only [Instr.mnemonic, Instr.mask, encode, and_funct3_mask, encI_funct3, encI_opcode]
    cases k <;> decide
  | ld | addiw =>
    obtain rfl := eq_rv64_of_beq h
    simp only [Instr.mnemonic, Instr.mask, encode, and_funct3_mask, encI_funct3, encI_opcode]
    decide
  | sb | sh | sw =>
    simp only [Instr.mnemonic, Instr.mask, encode, and_funct3_mask, encS_funct3, encS_opcode]
    cases k <;> decide
  | sd =>
    obtain rfl := eq_rv64_of_beq h
    simp only [Instr.mnemonic, Instr.mask, encode, and_funct3_mask, encS_funct3, encS_opcode]
    decide
  | slli _ _ sh | srli _ _ sh | srai _ _ sh =>
    cases k with
    | rv32 =>
      simp only [Instr.mnemonic, Instr.mask, encode, and_funct7_mask, encShift_funct3, encShift_opcode,
        funct7_encShift _ _ _ _ _ h]
      decide
    | rv64 =>
      simp only [Instr.mnemonic, Instr.mask, encode, and_selector_mask, encShift_funct3, encShift_opcode, selector_encShift]
      decide
  | slliw | srliw | sraiw =>
    obtain rfl := eq_rv64_of_beq h
    simp only [Instr.mnemonic, Instr.mask, encode, and_funct7_mask, encShiftW_funct7, encShiftW_funct3, encShiftW_opcode]
    decide
  | add | sub | sll | slt | sltu | xor | srl | sra | or | and =>
    simp only [Instr.mnemonic, Instr.mask, encode, and_funct7_mask, encR_funct7, encR_funct3, encR_opcode]
    cases k <;> decide
  | addw | subw | sllw | srlw | sraw =>
    obtain rfl := eq_rv64_of_beq h
    simp only [Instr.mnemonic, Instr.mask, encode, and_funct7_mask, encR_funct7, encR_funct3, encR_opcode]
    decide
  | lui | auipc =>
    simp only [Instr.mnemonic, Instr.mask, encode, and_opcode_mask, encU_opcode]
    cases k <;> decide
  | jal =>
    simp only [Instr.mnemonic, Instr.mask, encode, and_opcode_mask, encJ_opcode]
    cases k <;> decide
  | beq | bne | blt | bge | bltu | bgeu =>
    simp only [Instr.mnemonic, Instr.mask, encode, and_funct3_mask, encB_funct3, encB_opcode]
    cases k <;> decide
  | ecall | ebreak => cases k <;> decide

/-! ### Every word of a row decodes as the row says -/

/-- A field that the row's mask keeps whole is the pattern's. -/
theorem field_of_has {row : OpcodeRow} {w : BitVec 32} (h : row.has w = true) {start len : Nat}
    (hm : row.mask.extractLsb' start len = BitVec.allOnes len) :
    w.extractLsb' start len = row.pattern.extractLsb' start len := by
  rw [← (beq_iff_eq.mp h : w &&& row.mask = row.pattern), BitVec.extractLsb'_and, hm, BitVec.and_allOnes]

/-- Every word that stands in one of the rows decodes to an instruction of that row's mnemonic. -/
def RowsDecode (k : XLen) (w : BitVec 32) (rows : List OpcodeRow) : Prop :=
  ∀ row ∈ rows, row.has w = true → ∃ i, decode k w = .legal i ∧ i.mnemonic = row.mnemonic

section
variable {k : XLen} {w : BitVec 32}

theorem rowsDecode_nil : RowsDecode k w [] ↔ True := by simp [RowsDecode]

theorem rowsDecode_cons {row : OpcodeRow} {rows : List OpcodeRow} : RowsDecode k w (row :: rows) ↔
    (row.has w = true → ∃ i, decode k w = .legal i ∧ i.mnemonic = row.mnemonic) ∧ RowsDecode k w rows :=
  List.forall_mem_cons

theorem rowsDecode_append {rows rows' : List OpcodeRow} :
    RowsDecode k w (rows ++ rows') ↔ RowsDecode k w rows ∧ RowsDecode k w rows' :=
  List.forall_mem_append

theorem rowsDecode_loadRows : RowsDecode k w loadRows := by
  simp only [loadRows, rowsDecode_cons, rowsDecode_nil, and_true]
  and_intros <;> intro h
  all_goals
    have ho : opcodeOf w = 0x03#7 := field_of_has h rfl
    have h3 : funct3Of w = _ := field_of_has h rfl
    exact ⟨_, (decode_of_opcode_load k ho).trans (by rw [decodeLoad, h3]; rfl), rfl⟩

theorem rowsDecode_storeRows : RowsDecode k w storeRows := by
  simp only [storeRows, rowsDecode_cons, rowsDecode_nil, and_true]
  and_intros <;> intro h
  all_goals
    have ho : opcodeOf w = 0x23#7 := field_of_has h rfl
    have h3 : funct3Of w = _ := field_of_has h rfl
    exact ⟨_, (decode_of_opcode_store k ho).trans (by rw [decodeStore, h3]; rfl), rfl⟩

theorem rowsDecode_opImmRows : RowsDecode k w opImmRows := by
  simp only [opImmRows, rowsDecode_cons, rowsDecode_nil, and_true]
  and_intros <;> intro h
  all_goals
    have ho : opcodeOf w = 0x13#7 := field_of_has h rfl
    have h3 : funct3Of w = _ := field_of_has h rfl
    exact ⟨_, (decode_of_opcode_opImm k ho).trans (by rw [decodeOpImm, h3]; rfl), rfl⟩

theorem rowsDecode_shiftRows32 : RowsDecode .rv32 w shiftRows32 := by
  simp only [shiftRows32, rowsDecode_cons, rowsDecode_nil, and_true]
  and_intros <;> intro h
  all_goals
    have ho : opcodeOf w = 0x13#7 := field_of_has h rfl
    have h3 : funct3Of w = _ := field_of_has h rfl
    have h7 : funct7Of w = _ := field_of_has h rfl
    exact ⟨_, (decode_of_opcode_opImm _ ho).trans (by rw [decodeOpImm, h3, shiftFields, h7]; rfl), rfl⟩

theorem rowsDecode_shiftRows64 : RowsDecode .rv64 w shiftRows64 := by
  simp only [shiftRows64, rowsDecode_cons, rowsDecode_nil, and_true]
  and_intros <;> intro h
  all_goals
    have ho : opcodeOf w = 0x13#7 := field_of_has h rfl
    have h3 : funct3Of w = _ := field_of_has h rfl
    have hs : w.extractLsb' 26 6 = _ := field_of_has h rfl
    exact ⟨_, (decode_of_opcode_opImm _ ho).trans (by rw [decodeOpImm, h3, shiftFields, hs]; rfl), rfl⟩

theorem rowsDecode_opRows : RowsDecode k w opRows := by
  simp only [opRows, rowsDecode_cons, rowsDecode_nil, and_true]
  and_intros <;> intro h
  all_goals
    have ho : opcodeOf w = 0x33#7 := field_of_has h rfl
    have h3 : funct3Of w = _ := field_of_has h rfl
    have h7 : funct7Of w = _ := field_of_has h rfl
    exact ⟨_, (decode_of_opcode_op k ho).trans (by rw [decodeOp, decodeOpBase, decodeOpAlt, h3, h7]; rfl), rfl⟩

theorem rowsDecode_upperRows : RowsDecode k w upperRows := by
  simp only [upperRows, rowsDecode_cons, rowsDecode_nil, and_true]
  refine ⟨fun h => ?lui, fun h => ?auipc⟩
  case lui => exact ⟨_, decode_of_opcode_lui k (field_of_has h rfl), rfl⟩
  case auipc => exact ⟨_, decode_of_opcode_auipc k (field_of_has h rfl), rfl⟩

theorem rowsDecode_controlRows : RowsDecode k w controlRows := by
  simp only [controlRows, rowsDecode_cons, rowsDecode_nil, and_true]
  refine ⟨?beq, ?bne, ?blt, ?bge, ?bltu, ?bgeu, fun h => ?jalr, fun h => ?jal⟩
  case jalr =>
    have h3 : funct3Of w = _ := field_of_has h rfl
    exact ⟨_, (decode_of_opcode_jalr k (field_of_has h rfl)).trans (by rw [decodeJalr, h3]; rfl), rfl⟩
  case jal => exact ⟨_, decode_of_opcode_jal k (field_of_has h rfl), rfl⟩
  all_goals
    intro h
    have h3 : funct3Of w = _ := field_of_has h rfl
    exact ⟨_, (decode_of_opcode_branch k (field_of_has h rfl)).trans (by rw [decodeBranch, h3]; rfl), rfl⟩

/-- A row that fixes every bit holds one word. -/
theorem eq_pattern_of_has {row : OpcodeRow} (h : row.has w = true) (hm : row.mask = 0xffffffff) : w = row.pattern := by
  rw [← (beq_iff_eq.mp h : w &&& row.mask = row.pattern), hm]
  exact BitVec.and_allOnes.symm

theorem rowsDecode_systemRows : RowsDecode k w systemRows := by
  simp only [systemRows, rowsDecode_cons, rowsDecode_nil, and_true]
  refine ⟨fun h => ?ecall, fun h => ?ebreak, fun h => ?fence⟩
  case ecall =>
    obtain rfl := eq_pattern_of_has h rfl
    exact ⟨.ecall, rfl, rfl⟩
  case ebreak =>
    obtain rfl := eq_pattern_of_has h rfl
    exact ⟨.ebreak, rfl, rfl⟩
  case fence =>
    have h3 : funct3Of w = _ := field_of_has h rfl
    exact ⟨_, (decode_of_opcode_miscMem k (field_of_has h rfl)).trans (by rw [decodeMiscMem, h3]; rfl), rfl⟩

theorem rowsDecode_rows64 : RowsDecode .rv64 w rows64 := by
  simp only [rows64, rowsDecode_cons, rowsDecode_nil, and_true]
  refine ⟨fun h => ?ld, fun h => ?sd, fun h => ?addiw, fun h => ?slliw, fun h => ?srliw, fun h => ?sraiw,
    fun h => ?addw, fun h => ?subw, fun h => ?sllw, fun h => ?srlw, fun h => ?sraw⟩
  all_goals have h3 : funct3Of w = _ := field_of_has h rfl
  case ld => exact ⟨_, (decode_of_opcode_load _ (field_of_has h rfl)).trans (by rw [decodeLoad, h3]; rfl), rfl⟩
  case sd => exact ⟨_, (decode_of_opcode_store _ (field_of_has h rfl)).trans (by rw [decodeStore, h3]; rfl), rfl⟩
  case addiw => exact ⟨_, (decode_of_opcode_opImm32 (field_of_has h rfl)).trans (by rw [decodeOpImm32, h3]; rfl), rfl⟩
  all_goals have h7 : funct7Of w = _ := field_of_has h rfl
  case slliw | srliw | sraiw =>
    exact ⟨_, (decode_of_opcode_opImm32 (field_of_has h rfl)).trans (by rw [decodeOpImm32, h3, h7]; rfl), rfl⟩
  case addw | subw | sllw | srlw | sraw =>
    exact ⟨_, (decode_of_opcode_op32 (field_of_has h rfl)).trans (by rw [decodeOp32, h3, h7]; rfl), rfl⟩

/-- A word in a row of the opcode table decodes to an instruction of that row. -/
theorem rowsDecode_opcodeTable : RowsDecode k w (opcodeTable k) := by
  simp only [opcodeTable, rowsDecode_append]
  refine ⟨⟨⟨⟨⟨⟨⟨⟨rowsDecode_loadRows, rowsDecode_storeRows⟩, rowsDecode_opImmRows⟩, ?shifts⟩, rowsDecode_opRows⟩,
    rowsDecode_upperRows⟩, rowsDecode_controlRows⟩, rowsDecode_systemRows⟩, ?rv64Only⟩
  case shifts =>
    cases k with
    | rv32 => exact rowsDecode_shiftRows32
    | rv64 => exact rowsDecode_shiftRows64
  case rv64Only =>
    cases k with
    | rv32 => exact rowsDecode_nil.mpr trivial
    | rv64 => exact rowsDecode_rows64

end

/-! ### The statements -/

/-- Settles O23: a legal word is the encoding of its instruction (O22), which stands in the instruction's row; the other way,
each row fixes the fields the decoder looks at. -/
theorem decoderAgreesWithTheOpcodeTable : Obligations.DecoderAgreesWithTheOpcodeTable := by
  intro k w
  refine ⟨fun i h => ?row, rowsDecode_opcodeTable⟩
  obtain ⟨hwf, rfl⟩ := encodeOfDecodedWordIsTheWord k w i h
  exact ⟨i.row k, i.row_mem_opcodeTable hwf, i.row_has_encode k, rfl⟩

theorem opcodeTable_mnemonics_nodup (k : XLen) : ((opcodeTable k).map OpcodeRow.mnemonic).Nodup := by
  cases k <;> decide

/-- Settles O24: the word decodes to one instruction, of both rows' mnemonic, and no mnemonic has two rows at one width. -/
theorem noWordStandsInTwoOpcodeRows : Obligations.NoWordStandsInTwoOpcodeRows := by
  intro k w r hr q hq hrw hqw
  obtain ⟨i, hi, hir⟩ := rowsDecode_opcodeTable r hr hrw
  obtain ⟨j, hj, hjq⟩ := rowsDecode_opcodeTable q hq hqw
  obtain rfl : i = j := Class.legal.inj (hi.symm.trans hj)
  exact List.inj_on_of_nodup_map (opcodeTable_mnemonics_nodup k) hr hq (hir.symm.trans hjq)

end Sys2Proof
end

section
/-! The statements about the step, its faults and what it keeps (40_execution_cycle.md 1 and 2; 60_exceptions.md). -/

namespace Sys2Proof.Machine

/-! ### What a step can have done -/

/-- Everything a step that answers a next state has done: the core was running, and it halts with nothing else changed, or the
fetched word is an instruction and has run. -/
theorem step_next_cases {s t : State} (h : step s = .next t) : s.hart.run = .running ∧
    ((∃ f, t = ⟨s.xlen, s.hart.halt f⟩)
      ∨ ∃ w i, s.hart.fetch = .word w ∧ decode s.xlen w = .legal i ∧ exec i s = .next t) := by
  cases hr : s.hart.run with
  | halted f => rw [step_of_halted hr] at h; cases h
  | running =>
    refine ⟨rfl, ?_⟩
    obtain ⟨f, -, e⟩ | ⟨w, why, -, -, e⟩ | ⟨w, i, hw, hd, e⟩ := step_cases s.hart hr
    · exact .inl ⟨f, Host.Outcome.next.inj (h.symm.trans e)⟩
    · exact .inl ⟨_, Host.Outcome.next.inj (h.symm.trans e)⟩
    · exact .inr ⟨w, i, hw, hd, e.symm.trans h⟩

/-- What an instruction that answers a next state has done to it. -/
theorem effect_of_exec {i : Instr} {s t : State} (h : exec i s = .next t) : Effect i s (.next t) := h ▸ exec_effect i s

section
variable {k : XLen} {m : Hart k}

theorem fetch_of_misaligned (hpc : m.pc.toNat % 4 ≠ 0) : m.fetch = .bad .misaligned := if_pos hpc

theorem fetch_of_read_none (hpc : m.pc.toNat % 4 = 0) (hr : m.mem.read m.pc.toNat 4 = none) :
    m.fetch = .bad .outOfBounds := by
  simp [Hart.fetch, hpc, hr]

theorem fetch_of_read {w : BitVec 32} (hpc : m.pc.toNat % 4 = 0) (hr : m.mem.read m.pc.toNat 4 = some w) :
    m.fetch = .word w := by
  simp [Hart.fetch, hpc, hr]

theorem step_of_bad {f : Fault} (hrun : m.run = .running) (hf : m.fetch = .bad f) : step ⟨k, m⟩ = raise f ⟨k, m⟩ := by
  simp only [step, hrun, hf]

theorem step_of_illegal {w : BitVec 32} {why : Illegal} (hf : m.Fetches w) (hd : decode k w = .illegal why) :
    step ⟨k, m⟩ = raise .illegalInstruction ⟨k, m⟩ := by
  obtain ⟨hrun, hword⟩ := hf
  simp only [step, hrun, hword, runWord, hd]

theorem step_of_legal {w : BitVec 32} {i : Instr} (hf : m.Fetches w) (hd : decode k w = .legal i) :
    step ⟨k, m⟩ = exec i ⟨k, m⟩ := by
  obtain ⟨hrun, hword⟩ := hf
  simp only [step, hrun, hword, runWord, hd]

theorem step_running (hrun : m.run = .running) : ∃ t : Hart k, step ⟨k, m⟩ = .next ⟨k, t⟩ := by
  obtain ⟨f, -, e⟩ | ⟨w, why, -, -, e⟩ | ⟨w, i, -, -, e⟩ := step_cases m hrun
  · exact ⟨_, e⟩
  · exact ⟨_, e⟩
  · rw [e]
    exact exec_next i m

end

/-! ### The invariant -/

/-- A store leaves the window as it is (R71, R75). -/
theorem lsuStore_window {k : XLen} {mem mem' : Memory} {addr data : Word k} {n : Nat}
    (h : lsuStore mem addr n data = some mem') : mem'.base = mem.base ∧ mem'.size = mem.size := by
  unfold lsuStore Memory.write at h
  split at h <;> cases h
  exact ⟨rfl, rfl⟩

/-- A store keeps the canonical form. -/
theorem lsuStore_wf {k : XLen} {mem mem' : Memory} {addr data : Word k} {n : Nat} (hwf : mem.wf = true)
    (h : lsuStore mem addr n data = some mem') : mem'.wf = true := (Memory.write_wf hwf h).1

/-- No instruction breaks the invariant. -/
theorem exec_keeps_inv {i : Instr} {s t : State} (h : exec i s = .next t) (hs : s.Inv) : t.Inv := by
  obtain ⟨hwf, hfits, hx⟩ := hs
  cases effect_of_exec h with
  | raised | went => exact ⟨hwf, hfits, hx⟩
  | wrote | linked =>
    simp only [State.Inv, Hart.setPc_mem, Hart.setPc_x, Hart.setReg_mem, Hart.setReg_slot_zero]
    exact ⟨hwf, hfits, hx⟩
  | stored n rs1 imm data mem _ hm =>
    obtain ⟨hbase, hsize⟩ := lsuStore_window hm
    refine ⟨lsuStore_wf hwf hm, ?_, hx⟩
    simpa only [Memory.fits, Hart.setPc_mem, Hart.setMem_mem, hbase, hsize] using hfits

/-- Settles O33: a fault changes the run state alone, and of an instruction's effects only a store's memory and a write of x0
could break the invariant; neither does. -/
theorem stepKeepsTheStateInvariant : Obligations.StepKeepsTheStateInvariant := by
  intro s t hs h
  obtain ⟨-, ⟨f, rfl⟩ | ⟨w, i, -, -, hexec⟩⟩ := step_next_cases h
  · exact hs
  · exact exec_keeps_inv hexec hs

/-! ### An even pc (R40) -/

section
variable {k : XLen}

theorem even_iff_getLsbD_zero (a : Word k) : a.toNat % 2 = 0 ↔ a.getLsbD 0 = false := by
  rw [BitVec.getLsbD, Nat.testBit_zero]
  simp

theorem add_even {a b : Word k} (ha : a.toNat % 2 = 0) (hb : b.toNat % 2 = 0) : (a + b).toNat % 2 = 0 := by
  have hdvd : 2 ∣ 2 ^ k.bits := dvd_pow_self 2 k.bits_pos.ne'
  rw [BitVec.toNat_add, Nat.mod_mod_of_dvd _ hdvd]
  omega

theorem sext_even {n : Nat} (imm : BitVec (n + 1)) (h : imm[0] = false) : (sext k imm).toNat % 2 = 0 := by
  rw [even_iff_getLsbD_zero, sext_getLsbD _ _ k.bits_pos, if_pos n.succ_pos, BitVec.getLsbD_eq_getElem n.succ_pos, h]

theorem nextPc_even {m : Hart k} (h : m.pc.toNat % 2 = 0) : m.nextPc.toNat % 2 = 0 :=
  add_even h (by cases k <;> rfl)

theorem jalrTarget_even (m : Hart k) (rs1 : Reg) (imm : BitVec 12) : (m.jalrTarget rs1 imm).toNat % 2 = 0 := by
  rw [even_iff_getLsbD_zero, Hart.jalrTarget_getLsbD _ _ _ _ k.bits_pos]
  rfl

end

theorem branchIf_keeps_pcEven {c : Cond} {rs1 rs2 : Reg} {imm : BitVec 13} {s t : State} (h0 : imm[0] = false)
    (hs : s.PcEven) (h : branchIf c rs1 rs2 imm s = .next t) : t.PcEven := by
  rw [branchIf_eq] at h
  cases h
  simp only [State.PcEven, Hart.setPc_pc]
  split
  · exact add_even hs (sext_even imm h0)
  · exact nextPc_even hs

/-- A well-formed instruction keeps an even pc: one that is no control transfer adds 4, and the others' targets are even. -/
theorem exec_keeps_pcEven {i : Instr} {s t : State} (hwf : i.wellFormed s.xlen = true) (hs : s.PcEven)
    (h : exec i s = .next t) : t.PcEven := by
  cases hc : i.controls with
  | false =>
    cases effect_of_exec h with
    | raised => exact hs
    | wrote | stored => exact nextPc_even hs
    | linked _ _ _ _ hc' => rw [hc] at hc'; cases hc'
    | went _ _ _ htarget => rw [htarget hc]; exact nextPc_even hs
  | true =>
    cases i with
    | beq _ _ imm | bne _ _ imm | blt _ _ imm | bge _ _ imm | bltu _ _ imm | bgeu _ _ imm =>
      exact branchIf_keeps_pcEven (by simpa [Instr.wellFormed] using hwf) hs h
    | jalr rd rs1 imm => cases h; exact jalrTarget_even s.hart rs1 imm
    | jal rd imm => cases h; exact add_even hs (sext_even imm (by simpa [Instr.wellFormed] using hwf))
    | _ => cases hc

/-- Settles O34: a fault leaves the pc, and a legal word's instruction is well-formed (O22), so its branch or JAL offset is even. -/
theorem stepKeepsThePcEven : Obligations.StepKeepsThePcEven := by
  intro s t hs h
  obtain ⟨-, ⟨f, rfl⟩ | ⟨w, i, -, hd, hexec⟩⟩ := step_next_cases h
  · exact hs
  · exact exec_keeps_pcEven (encodeOfDecodedWordIsTheWord _ w i hd).1 hs hexec

/-! ### What a step leaves unchanged -/

/-- Settles O35: no effect of an instruction reaches the width, and a store keeps the window. -/
theorem stepKeepsTheParameters : Obligations.StepKeepsTheParameters := by
  intro s t h
  obtain ⟨-, ⟨f, rfl⟩ | ⟨w, i, -, -, hexec⟩⟩ := step_next_cases h
  · exact ⟨rfl, rfl, rfl⟩
  · cases effect_of_exec hexec with
    | raised | went => exact ⟨rfl, rfl, rfl⟩
    | wrote | linked => simp only [Hart.setPc_mem, Hart.setReg_mem, and_self]
    | stored _ _ _ _ _ _ hm => exact ⟨rfl, lsuStore_window hm⟩

/-- Settles O36: of an instruction's effects only a store's commit has a new memory, which differs at the stored bytes alone. -/
theorem onlyStoresChangeMemoryAndOnlyTheirBytes : Obligations.OnlyStoresChangeMemoryAndOnlyTheirBytes := by
  intro k m t w i hwf hf hd h
  rw [step_of_legal hf hd] at h
  cases effect_of_exec h with
  | raised => exact ⟨fun _ => ⟨rfl, rfl, fun _ => rfl⟩, fun _ _ _ _ _ _ => rfl⟩
  | wrote _ _ _ hs | linked _ _ _ hs | went _ _ hs => simp [SameMemory, hs]
  | stored n rs1 imm data mem hs hm =>
    refine ⟨fun hnone => ?nostore, fun n' rs1' imm' hsome y hy => ?frame⟩
    case nostore => rw [hs] at hnone; cases hnone
    case frame =>
      cases hs.symm.trans hsome
      exact (lsuStore_byte hwf hm y).trans (if_neg (by simp only; omega))

/-- Settles O37: a register that reads differently is not x0, the step ran an instruction, and the effect was a write of its
destination. -/
theorem stepWritesNoRegisterButTheDestination : Obligations.StepWritesNoRegisterButTheDestination := by
  intro k m t h r hr
  have h0 : r ≠ 0 := by rintro rfl; simp at hr
  refine ⟨h0, ?_⟩
  obtain ⟨hrun, ⟨f, e⟩ | ⟨w, i, hw, hd, hexec⟩⟩ := step_next_cases h
  · cases e
    exact absurd rfl hr
  · refine ⟨w, i, ⟨hrun, hw⟩, hd, ?_⟩
    cases effect_of_exec hexec with
    | raised | went | stored => exact absurd rfl hr
    | wrote rd v hdest | linked rd v hdest =>
      rw [Hart.setPc_reg, Hart.setReg_reg] at hr
      split at hr
      case isTrue hrd => rw [hdest, hrd.1]
      case isFalse => exact absurd rfl hr

/-- Settles O38: every effect but a link and a jump, which only control transfers have, sets the pc to `A + 4` or halts. -/
theorem pcAdvancesByFourUnlessControlTransfer : Obligations.PcAdvancesByFourUnlessControlTransfer := by
  intro k m t w i hf hd hc h hrun
  rw [step_of_legal hf hd] at h
  cases effect_of_exec h with
  | raised => cases hrun
  | wrote | stored => rfl
  | linked _ _ _ _ hc' => rw [hc] at hc'; cases hc'
  | went _ _ _ htarget => exact htarget hc

/-- An instruction halts the core and changes nothing else, or keeps the run state. -/
theorem exec_halts_or_keeps_run {k : XLen} {m t : Hart k} {i : Instr} (h : exec i ⟨k, m⟩ = .next ⟨k, t⟩) :
    (∃ f, t = m.halt f) ∨ t.run = m.run := by
  cases effect_of_exec h with
  | raised f => exact .inl ⟨f, rfl⟩
  | _ => exact .inr (by simp)

/-- Settles O29: a running core that is halted after the step was halted by the step, and halting changes the run state alone. -/
theorem faultingStepChangesOnlyTheRunState : Obligations.FaultingStepChangesOnlyTheRunState := by
  intro k m t f h ht
  obtain ⟨hrun, hcases⟩ := step_next_cases h
  have hhalt : ∃ f, t = m.halt f := by
    obtain ⟨f, e⟩ | ⟨w, i, -, -, hexec⟩ := hcases
    · cases e
      exact ⟨f, rfl⟩
    · refine (exec_halts_or_keeps_run hexec).resolve_right fun e => ?_
      rw [ht, hrun] at e
      cases e
  obtain ⟨f, rfl⟩ := hhalt
  exact ⟨hrun, fun _ => rfl, rfl, rfl, rfl, fun _ => rfl⟩

/-! ### The step in the order of its checks (R160, R161) -/

/-- Settles O27: the fetch's three results, and the decoder's two for a fetched word. -/
theorem stepRunsTheDecodedInstruction : Obligations.StepRunsTheDecodedInstruction := by
  intro k m hrun
  refine ⟨fun hpc => ?misaligned, fun hpc hr => ?outOfBounds, fun w hpc hr => ?fetched⟩
  case misaligned => exact step_of_bad hrun (fetch_of_misaligned hpc)
  case outOfBounds => exact step_of_bad hrun (fetch_of_read_none hpc hr)
  case fetched =>
    have hf : m.Fetches w := ⟨hrun, fetch_of_read hpc hr⟩
    exact ⟨fun i hd => step_of_legal hf hd, fun why hd => step_of_illegal hf hd⟩

/-- Settles O28: the step from Running and the one from Halted. -/
theorem stepAnswersExactlyWhenRunning : Obligations.StepAnswersExactlyWhenRunning :=
  fun _ _ => ⟨step_running, fun _ hhalt => step_of_halted hhalt⟩

/-! ### The run loop (R8, decision D18) -/

/-- The ways the run loop ends when it starts from a running core: what is true of each stop and the state it leaves. -/
inductive Stopped (policy : RunPolicy) : Stop × State → Prop where
  | faulted (f : Fault) (t : State) (hrun : t.hart.run = .halted f) : Stopped policy (.faulted f, t)
  | pcZero (t : State) (hp : policy.haltOnPcZero = true) (hrun : t.hart.run = .running) (hpc : t.hart.pc = 0#_) :
      Stopped policy (.pcZero, t)
  | stepLimit (t : State) (hp : policy.stepLimit ≠ none) (hrun : t.hart.run = .running) : Stopped policy (.stepLimit, t)
  | callsUsed (t : State) (hrun : t.hart.run = .running) : Stopped policy (.callsUsed, t)

/-- The policy after a step asks for no stop that the policy before it did not. -/
theorem Stopped.of_lessOne {policy : RunPolicy} {r : Stop × State}
    (h : Stopped { policy with stepLimit := lessOne policy.stepLimit } r) : Stopped policy r := by
  cases h with
  | faulted f t hrun => exact .faulted f t hrun
  | pcZero t hp hrun hpc => exact .pcZero t hp hrun hpc
  | stepLimit t hp hrun => exact .stepLimit t (fun e => hp (congrArg lessOne e)) hrun
  | callsUsed t hrun => exact .callsUsed t hrun

theorem drive_stopped (policy : RunPolicy) (calls : Nat) (s : State) (hrun : s.hart.run = .running) :
    Stopped policy (drive policy calls s) := by
  induction calls generalizing policy s with
  | zero => exact .callsUsed s hrun
  | succ calls ih =>
    obtain ⟨t, hstep⟩ := step_running hrun
    rw [drive, hstep]
    by_cases hlimit : policy.stepLimit = some 0
    · rw [if_pos hlimit]
      exact .stepLimit s (by simp [hlimit]) hrun
    rw [if_neg hlimit]
    cases ht : t.run with
    | halted f => simp only [ht]; exact .faulted f _ ht
    | running =>
      simp only [ht]
      split
      case isTrue hzero =>
        obtain ⟨hp, hpc⟩ := Bool.and_eq_true_iff.mp hzero
        exact .pcZero _ hp ht (beq_iff_eq.mp hpc)
      case isFalse => exact (ih _ _ ht).of_lessOne

/-- Settles O39: by induction on the calls, the loop ends in one of the four ways, none of them a refusal. -/
theorem runLoopPoliciesLeaveTheCoreRunning : Obligations.RunLoopPoliciesLeaveTheCoreRunning := by
  intro policy calls s hrun
  have h := drive_stopped policy calls s hrun
  generalize drive policy calls s = r at h
  cases h with
  | faulted f t hrun => simp [hrun]
  | pcZero t hp hrun hpc => simp [hp, hrun, hpc]
  | stepLimit t hp hrun => simp [hp, hrun]
  | callsUsed t hrun => simp [hrun]

/-! ### Which fault a step raises (R341 to R343, R347) -/

/-- The instruction is a load or a store, and not all the bytes at its effective address are in the window (R342). -/
def AccessesOutside {k : XLen} (i : Instr) (m : Hart k) : Prop :=
  ∃ n rs1 imm, (i.loads = some (n, rs1, imm) ∨ i.stores = some (n, rs1, imm))
    ∧ m.mem.inBounds (m.reg rs1 + sext k imm).toNat n = false

section
variable {k : XLen} {i : Instr} {m : Hart k}

theorem accessesOutside_of_loads {n : Nat} {rs1 : Reg} {imm : BitVec 12} (hl : i.loads = some (n, rs1, imm))
    (hs : i.stores = none) : AccessesOutside i m ↔ m.mem.inBounds (m.loadAddr rs1 imm).toNat n = false := by
  simp [AccessesOutside, hl, hs, Hart.loadAddr, immI]

theorem accessesOutside_of_stores {n : Nat} {rs1 : Reg} {imm : BitVec 12} (hl : i.loads = none)
    (hs : i.stores = some (n, rs1, imm)) :
    AccessesOutside i m ↔ m.mem.inBounds (m.storeAddr rs1 imm).toNat n = false := by
  simp [AccessesOutside, hl, hs, Hart.storeAddr, immS]

theorem not_accessesOutside (hl : i.loads = none) (hs : i.stores = none) : ¬ AccessesOutside i m := by
  simp [AccessesOutside, hl, hs]

/-- `o` is an outcome `i` can have from `m` as far as faults go: OutOfBounds when it accesses bytes outside the window, and
otherwise a state with the run state as it was. -/
def EndsAs (i : Instr) (m : Hart k) (o : Host.Outcome State Fault Refusal) : Prop :=
  (AccessesOutside i m ∧ o = raise .outOfBounds ⟨k, m⟩)
    ∨ (¬ AccessesOutside i m ∧ ∃ t : Hart k, o = .next ⟨k, t⟩ ∧ t.run = m.run)

theorem endsAs_loadInto {n : Nat} {signed : Bool} {rd rs1 : Reg} {imm : BitVec 12} (hl : i.loads = some (n, rs1, imm))
    (hs : i.stores = none) : EndsAs i m (loadInto n signed rd rs1 imm ⟨k, m⟩) := by
  have hsome := lsuLoad_isSome m.mem (m.loadAddr rs1 imm) n signed
  rw [EndsAs, accessesOutside_of_loads hl hs, ← hsome]
  obtain ⟨v, hv, e⟩ | ⟨hv, e⟩ := loadInto_cases n signed rd rs1 imm ⟨k, m⟩
  · exact .inr ⟨by simp [hv], _, e, by simp⟩
  · exact .inl ⟨by simp [hv], e⟩

theorem endsAs_storeFrom {n : Nat} {rs1 rs2 : Reg} {imm : BitVec 12} (hl : i.loads = none)
    (hs : i.stores = some (n, rs1, imm)) : EndsAs i m (storeFrom n rs1 rs2 imm ⟨k, m⟩) := by
  have hsome := lsuStore_isSome m.mem (m.storeAddr rs1 imm) n (m.reg rs2)
  rw [EndsAs, accessesOutside_of_stores hl hs, ← hsome]
  obtain ⟨mem, hm, e⟩ | ⟨hm, e⟩ := storeFrom_cases n rs1 rs2 imm ⟨k, m⟩
  · exact .inr ⟨by simp [hm], _, e, by simp⟩
  · exact .inl ⟨by simp [hm], e⟩

theorem endsAs_retire (hl : i.loads = none) (hs : i.stores = none) {t : Hart k} (ht : t.run = m.run) :
    EndsAs i m (retire ⟨k, m⟩ t) := .inr ⟨not_accessesOutside hl hs, t, rfl, ht⟩

theorem endsAs_writeBack (hl : i.loads = none) (hs : i.stores = none) (rd : Reg) (v : Word k) :
    EndsAs i m (writeBack rd ⟨k, m⟩ v) := endsAs_retire hl hs (by simp)

theorem endsAs_aluShamt {op : AluOp} {rd rs1 : Reg} {shamt : BitVec 6} (hl : i.loads = none) (hs : i.stores = none)
    (hfits : shamtFits k shamt = true) : EndsAs i m (aluShamt op rd rs1 shamt ⟨k, m⟩) := by
  rw [aluShamt, if_pos hfits]
  exact endsAs_writeBack hl hs ..

theorem endsAs_branchIf {c : Cond} {rs1 rs2 : Reg} {imm : BitVec 13} (hl : i.loads = none) (hs : i.stores = none) :
    EndsAs i m (branchIf c rs1 rs2 imm ⟨k, m⟩) := by
  rw [branchIf_eq]
  exact endsAs_retire hl hs rfl

/-- A well-formed instruction raises no fault but OutOfBounds, and that one exactly when it accesses bytes outside the window. -/
theorem exec_endsAs (hwf : i.wellFormed k = true) : EndsAs i m (exec i ⟨k, m⟩) := by
  cases i with
  | lb | lh | lw | lbu | lhu => exact endsAs_loadInto rfl rfl
  | ld =>
    obtain rfl := eq_rv64_of_beq hwf
    exact endsAs_loadInto rfl rfl
  | sb | sh | sw => exact endsAs_storeFrom rfl rfl
  | sd =>
    obtain rfl := eq_rv64_of_beq hwf
    exact endsAs_storeFrom rfl rfl
  | slli | srli | srai => exact endsAs_aluShamt rfl rfl hwf
  | addiw | slliw | srliw | sraiw | addw | subw | sllw | srlw | sraw =>
    obtain rfl := eq_rv64_of_beq hwf
    exact endsAs_writeBack rfl rfl ..
  | beq | bne | blt | bge | bltu | bgeu => exact endsAs_branchIf rfl rfl
  | jalr | jal => exact endsAs_retire rfl rfl (by simp)
  | ecall | ebreak | fence => exact endsAs_retire rfl rfl rfl
  | _ => exact endsAs_writeBack rfl rfl ..

end

/-- Settles O30: each result of the fetch and of the decoder fixes the fault, and a legal word's instruction, well-formed by O22,
raises OutOfBounds exactly when its access leaves the window. -/
theorem faultKindFollowsThePriority : Obligations.FaultKindFollowsThePriority := by
  intro k m hrun
  obtain ⟨hpc, hf⟩ | ⟨hpc, hr, hf⟩ | ⟨w, hpc, hr, hf⟩ := m.fetch_cases
  · exact ⟨_, step_of_bad hrun hf, by simp [hpc]⟩
  · have hout : m.mem.inBounds m.pc.toNat 4 = false := by rw [← Memory.read_isSome, hr]; rfl
    exact ⟨_, step_of_bad hrun hf, by simp [hpc, hr, hout]⟩
  have hin : m.mem.inBounds m.pc.toNat 4 = true := by rw [← Memory.read_isSome, hr]; rfl
  cases hd : decode k w with
  | illegal why => exact ⟨_, step_of_illegal ⟨hrun, hf⟩ hd, by simp [hpc, hr, hin, hd]⟩
  | legal i =>
    rw [step_of_legal ⟨hrun, hf⟩ hd]
    have hwf := (encodeOfDecodedWordIsTheWord k w i hd).1
    obtain ⟨hout, e⟩ | ⟨hok, t, e, ht⟩ := exec_endsAs (m := m) hwf
    · exact ⟨_, e, by simpa [hpc, hr, hin, hd, AccessesOutside] using hout⟩
    · exact ⟨_, e, by simpa [hpc, hr, hin, hd, ht, hrun, AccessesOutside] using hok⟩

/-! ### A jump to a misaligned target (R163, decision D13) -/

/-- An instruction that completes at a target which is no multiple of 4 leaves the core to halt there at its next fetch. -/
theorem Completes.thenMisaligned {k : XLen} {i : Instr} {m : Hart k} {rd : Option Reg} {a : Word k}
    (h : Completes i m rd (m.pc + 4#_) a) (hrun : m.run = .running) (ha : a.toNat % 4 ≠ 0) :
    CompletesThenMisaligned i m rd a := by
  obtain ⟨t, hexec, hreg, rfl, hmem, ht⟩ := h
  have htrun : t.run = .running := ht.trans hrun
  have hstep : step ⟨k, t⟩ = raise .misaligned ⟨k, t⟩ := step_of_bad htrun (fetch_of_misaligned ha)
  exact ⟨t, hexec, htrun, rfl, hreg, hmem, _, hstep, rfl, rfl, fun _ => rfl, rfl, rfl, fun _ => rfl⟩

/-- Settles O31: the jumps and the taken branches complete at their target, from where the next fetch faults. -/
theorem misalignedJumpTargetFaultsAtTheNextFetch : Obligations.MisalignedJumpTargetFaultsAtTheNextFetch := by
  intro k m rd rs1 rs2 imm12 imm13 imm21 hrun
  refine ⟨fun ha => ?jalr, fun ha => ?jal,
    fun ha => ⟨fun h => ?beq, fun h => ?bne, fun h => ?blt, fun h => ?bge, fun h => ?bltu, fun h => ?bgeu⟩⟩
  case jalr | jal => exact (completes_of_setReg_setPc rfl).thenMisaligned hrun ha
  all_goals refine Completes.thenMisaligned (completes_of_branchIf_taken rfl ?_) hrun ha
  case beq => exact Cond.eq_holds.mpr h
  case bne => exact Cond.ne_holds.mpr h
  case blt => exact Cond.lt_holds.mpr h
  case bge => exact Cond.ge_holds.mpr h
  case bltu => exact Cond.ltu_holds.mpr h
  case bgeu => exact Cond.geu_holds.mpr h

end Sys2Proof.Machine
end

section
/-! The statements about immediates and single words (30_encoding.md 3 and 5). -/

namespace Sys2Proof

/-! ### The bits of the immediates (R118 to R122) -/

section
variable {k : XLen} (w : BitVec 32) {j : Nat}

theorem bitsI_getLsbD (hj : j < 12) : (bitsI w).getLsbD j = if j < 11 then w.getLsbD (20 + j) else w.getLsbD 31 := by
  simp only [bitsI, BitVec.getLsbD_extractLsb']
  interval_cases j <;> simp

theorem bitsS_getLsbD (hj : j < 12) : (bitsS w).getLsbD j =
    if j < 5 then w.getLsbD (7 + j) else if j < 11 then w.getLsbD (20 + j) else w.getLsbD 31 := by
  simp only [bitsS, BitVec.getLsbD_append, BitVec.getLsbD_extractLsb']
  interval_cases j <;> simp

theorem bitsB_getLsbD (hj : j < 13) :
    (bitsB w).getLsbD j = if j = 0 then false else if j < 5 then w.getLsbD (7 + j) else if j < 11 then w.getLsbD (20 + j)
      else if j = 11 then w.getLsbD 7 else w.getLsbD 31 := by
  simp only [bitsB, BitVec.getLsbD_append, BitVec.getLsbD_extractLsb']
  interval_cases j <;> simp

theorem bitsJ_getLsbD (hj : j < 21) :
    (bitsJ w).getLsbD j = if j = 0 then false else if j < 11 then w.getLsbD (20 + j) else if j = 11 then w.getLsbD 20
      else if j < 20 then w.getLsbD j else w.getLsbD 31 := by
  simp only [bitsJ, BitVec.getLsbD_append, BitVec.getLsbD_extractLsb']
  interval_cases j <;> simp

theorem positionedU_getLsbD (hj : j < 32) : (bitsU w ++ 0#12).getLsbD j =
    if j < 12 then false else if j < 32 then w.getLsbD j else w.getLsbD 31 := by
  simp only [bitsU, BitVec.getLsbD_append, BitVec.getLsbD_extractLsb']
  interval_cases j <;> simp

/-- `sext_N` of an operand whose bits, the last of them repeated upward, are those of `f` (R12). -/
theorem sext_getLsbD_of_bits {n : Nat} {v : BitVec (n + 1)} {f : Nat → Bool} (hj : j < k.bits)
    (hbits : ∀ i < n + 1, v.getLsbD i = f i) (hsign : n ≤ j → f j = f n) : (sext k v).getLsbD j = f j := by
  rw [sext_getLsbD v j hj, BitVec.msb_eq_getLsbD_last]
  split
  case isTrue h => exact hbits j h
  case isFalse h => exact (hbits n n.lt_succ_self).trans (hsign (by omega)).symm

end

/-- Settles O16: each operand's bits, then its last one, which is the word's bit 31, repeated. -/
theorem signedImmediatesTakeTheirBitsFromTheWord : Obligations.SignedImmediatesTakeTheirBitsFromTheWord := by
  intro k w j hj
  refine ⟨?immI, ?immS, ?immB, ?immJ⟩
  case immI => exact sext_getLsbD_of_bits hj (fun _ => bitsI_getLsbD w) fun h => by grind
  case immS => exact sext_getLsbD_of_bits hj (fun _ => bitsS_getLsbD w) fun h => by grind
  case immB => exact sext_getLsbD_of_bits hj (fun _ => bitsB_getLsbD w) fun h => by grind
  case immJ => exact sext_getLsbD_of_bits hj (fun _ => bitsJ_getLsbD w) fun h => by grind

/-- Settles O17: the positioned field is a 32-bit operand whose last bit is the word's bit 31. -/
theorem upperImmediateIsPositionedAndSignExtended : Obligations.UpperImmediateIsPositionedAndSignExtended := by
  intro k w j hj
  exact sext_getLsbD_of_bits hj (fun _ => positionedU_getLsbD w) fun h => by grind

/-! ### Signed values (R118 to R122) -/

section
variable {k : XLen}

theorem immI_toInt (imm : BitVec 12) : (immI k imm).toInt = imm.toInt := sext_toInt imm (by cases k <;> decide)
theorem immB_toInt (imm : BitVec 13) : (immB k imm).toInt = imm.toInt := sext_toInt imm (by cases k <;> decide)
theorem immJ_toInt (imm : BitVec 21) : (immJ k imm).toInt = imm.toInt := sext_toInt imm (by cases k <;> decide)

theorem immU_toInt (imm : BitVec 20) : (immU k imm).toInt = 4096 * imm.toInt :=
  (sext_toInt (imm ++ 0#12) k.le_bits).trans BitVec.toInt_append_zero

/-- An operand with bit 0 clear has an even signed value. -/
theorem toInt_even {n : Nat} (v : BitVec (n + 1)) (h : v[0] = false) : v.toInt % 2 = 0 := by
  have hnat : v.toNat % 2 = 0 := by
    rw [← BitVec.getLsbD_eq_getElem n.succ_pos, BitVec.getLsbD, Nat.testBit_zero] at h
    simpa using h
  have hpow : 2 ^ (n + 1) = 2 * 2 ^ n := Nat.pow_succ'
  rw [BitVec.toInt_eq_toNat_cond, hpow]
  split <;> omega

end

/-- Settles O18: extension keeps the signed value, which lies in the operand's own range and is even where bit 0 is clear. -/
theorem immediatesKeepTheirSignedValueAndRange : Obligations.ImmediatesKeepTheirSignedValueAndRange := by
  intro k
  refine ⟨fun imm => ?i, fun imm h0 => ?b, fun imm h0 => ?j, immU_toInt⟩
  case i =>
    have hlo := BitVec.le_toInt imm
    have hhi := BitVec.toInt_lt (x := imm)
    refine ⟨immI_toInt imm, immI_toInt imm, ?_⟩
    rw [immI_toInt]
    omega
  case b =>
    have hlo := BitVec.le_toInt imm
    have hhi := BitVec.toInt_lt (x := imm)
    have heven := toInt_even imm h0
    refine ⟨immB_toInt imm, ?_⟩
    rw [immB_toInt]
    omega
  case j =>
    have hlo := BitVec.le_toInt imm
    have hhi := BitVec.toInt_lt (x := imm)
    have heven := toInt_even imm h0
    refine ⟨immJ_toInt imm, ?_⟩
    rw [immJ_toInt]
    omega

/-! ### Legal and Illegal words -/

/-- Settles O20: the decoder run on each of the thirteen words. -/
theorem writtenOutWordsDecodeToTheirInstructions : Obligations.WrittenOutWordsDecodeToTheirInstructions := by
  refine ⟨?_, ?_, ?_, ?_, ?_, ?_, ?_, ?_, ?_, ?_, ?_, ?_, ?_⟩ <;> rfl

/-- The three kinds of SYSTEM word (R141). -/
theorem decodeSystem_cases (w : BitVec 32) :
    (w = 0x00000073#32 ∧ decodeSystem w = .legal .ecall) ∨ (w = 0x00100073#32 ∧ decodeSystem w = .legal .ebreak)
      ∨ (w ≠ 0x00000073#32 ∧ w ≠ 0x00100073#32 ∧ decodeSystem w = .illegal .system) := by
  unfold decodeSystem
  split
  case h_1 => exact .inl ⟨rfl, rfl⟩
  case h_2 => exact .inr (.inl ⟨rfl, rfl⟩)
  case h_3 h1 h2 => exact .inr (.inr ⟨h1, h2, rfl⟩)

theorem decodeMiscMem_illegal {w : BitVec 32} (h3 : funct3Of w ≠ 0b000#3) : decodeMiscMem w = .illegal .funct3 := by
  unfold decodeMiscMem
  split
  case h_1 h => exact absurd h h3
  case h_2 => rfl

/-- Settles O25: the three kinds of SYSTEM word, and the two kinds of MISC-MEM word. -/
theorem systemWordsAreExactAndFenceBitsAreFree : Obligations.SystemWordsAreExactAndFenceBitsAreFree := by
  intro k w
  refine ⟨fun ho => ?system, fun ho h3 => ?fence, fun ho h3 => ?illegal⟩
  case system =>
    rw [decode_of_opcode_system k ho]
    obtain ⟨rfl, e⟩ | ⟨rfl, e⟩ | ⟨h1, h2, e⟩ := decodeSystem_cases w
    · simp [e]
    · simp [e]
    · simp [e, h1, h2]
  case fence =>
    rw [decode_of_opcode_miscMem k ho, decodeMiscMem, h3]
    exact ⟨_, _, _, _, _, rfl⟩
  case illegal => exact ⟨_, (decode_of_opcode_miscMem k ho).trans (decodeMiscMem_illegal h3)⟩

/-- The low two bits of a legal word are 11 (R110, R125). -/
theorem low_of_legal {k : XLen} {w : BitVec 32} {i : Instr} (h : decode k w = .legal i) :
    w.extractLsb' 0 2 = 0b11#2 := by
  unfold decode at h
  split at h
  case h_14 => cases h
  all_goals exact low_of_opcode ‹_› (by decide)

theorem decodeJalr_illegal {w : BitVec 32} (h3 : funct3Of w ≠ 0b000#3) : decodeJalr w = .illegal .funct3 := by
  unfold decodeJalr
  split
  case h_1 h => exact absurd h h3
  case h_2 => rfl

/-- Settles O26: a legal word ends in 11, and the decoder refuses each of the other groups by its fields. -/
theorem unlistedWordsAreIllegal : Obligations.UnlistedWordsAreIllegal := by
  rintro k w (hlow | ⟨ho, h7⟩ | ⟨ho, h3⟩ | ⟨ho, h3⟩ | ⟨ho, h3⟩ | ⟨rfl, ho⟩)
  · cases hd : decode k w with
    | legal i => exact absurd (low_of_legal hd) hlow
    | illegal why => exact ⟨why, rfl⟩
  · exact ⟨.funct7, (decode_of_opcode_op k ho).trans (by rw [decodeOp, h7]; rfl)⟩
  · refine ⟨.funct3, (decode_of_opcode_load k ho).trans ?_⟩
    obtain h3 | h3 := h3 <;> (rw [decodeLoad, h3]; rfl)
  · refine ⟨.funct3, (decode_of_opcode_branch k ho).trans ?_⟩
    obtain h3 | h3 := h3 <;> (rw [decodeBranch, h3]; rfl)
  · exact ⟨.funct3, (decode_of_opcode_jalr k ho).trans (decodeJalr_illegal h3)⟩
  · exact ⟨.rv64Only, decode_rv32_of_opcode_word ho⟩

end Sys2Proof
end

section
/-! The statements about registers, reset, memory and addresses. -/

namespace Sys2Proof.Machine

/-! ### Registers and the host's view (10_state.md) -/

/-- Settles O5: the register file's write law, and the fields a register write leaves. -/
theorem registerWriteReachesOneRegisterUnlessZero : Obligations.RegisterWriteReachesOneRegisterUnlessZero := by
  intro k m r q v
  refine ⟨?_, m.setReg_pc r v, m.setReg_mem r v, m.setReg_run r v⟩
  have hiff : (r = q ∧ q ≠ 0) ↔ (q = r ∧ r ≠ 0) := by
    constructor <;> (rintro ⟨rfl, h⟩; exact ⟨rfl, h⟩)
  rw [m.setReg_reg, if_congr hiff rfl rfl]

theorem Hart.snapshot_reg {k : XLen} (m : Hart k) (r : Reg) : m.snapshot.1[r] = m.reg r := by
  simp [Hart.snapshot]

theorem report_of_running {k : XLen} {m : Hart k} (h : m.run = .running) : (State.mk k m).report = none := by
  simp only [State.report, h]

theorem report_of_halted {k : XLen} {m : Hart k} {f : Fault} (h : m.run = .halted f) :
    (State.mk k m).report = some (f, m.snapshot) := by
  simp only [State.report, h]

/-- Settles O6: the snapshot tabulates the read port, and the report looks at the run state first. -/
theorem snapshotAndReportShowRegistersPcAndFault : Obligations.SnapshotAndReportShowRegistersPcAndFault :=
  ⟨fun _ m => ⟨m.snapshot_reg, rfl⟩, fun _ _ => ⟨report_of_running, fun _ => report_of_halted⟩⟩

/-! ### Reset (70_reset_and_hazards.md 1) -/

/-- Settles O1: the fields of the reset state, with the window that loading keeps. -/
theorem resetStateHoldsTheParameters : Obligations.ResetStateHoldsTheParameters := by
  refine ⟨fun p => ?_, rfl⟩
  obtain ⟨-, hbase, hsize⟩ := loadedImage_wf p
  exact ⟨rfl, rfl, rfl, (resetHart p).reg_zero, resetHart_reg_succ p, hbase, hsize⟩

theorem params_valid_iff (p : Params) : p.valid = true ↔
    1 ≤ p.memSize ∧ p.memBase + p.memSize ≤ 2 ^ p.xlen.bits
      ∧ (∀ g ∈ p.image, g.inside p.memBase p.memSize = true) ∧ p.image.Pairwise (fun g h => g.apart h = true) := by
  simp only [Params.valid, Bool.and_eq_true, decide_eq_true_eq, List.all_eq_true, and_assoc]

/-- Valid parameters reset to a state that meets the invariant. -/
theorem resetOf_inv {p : Params} (h : p.valid = true) : (State.resetOf p).Inv := by
  obtain ⟨hsize1, hfits, -, -⟩ := (params_valid_iff p).mp h
  obtain ⟨hwf, hbase, hsize⟩ := loadedImage_wf p
  refine ⟨hwf, ?fits, ?slot⟩
  case fits =>
    show (loadedImage p).fits p.xlen = true
    simp [Memory.fits, hbase, hsize, hsize1, hfits]
  case slot => simp [State.resetOf, resetHart]

theorem named_valid : Params.named.valid = true := by decide

/-- Settles O3: valid parameters reset into the invariant, and the named ones are valid. -/
theorem resetMeetsTheStateInvariant : Obligations.ResetMeetsTheStateInvariant :=
  ⟨fun _ => resetOf_inv, named_valid, resetOf_inv named_valid⟩

theorem segment_apart_iff {g h : Segment} :
    g.apart h = true ↔ g.addr + g.bytes.length ≤ h.addr ∨ h.addr + h.bytes.length ≤ g.addr := by
  simp [Segment.apart]

/-- A segment inside the window puts its bytes in place (R372). -/
theorem Memory.load_byte_of_inside {m : Memory} (hwf : m.wf = true) {g : Segment}
    (hin : g.inside m.base m.size = true) {j : Nat} (hj : j < g.bytes.length) :
    (m.load g.addr g.bytes).byte (g.addr + j) = g.bytes[j] := by
  have hb : m.inBounds g.addr g.bytes.length = true := hin
  rw [Memory.load, if_pos hb, Memory.put_byte hwf, if_pos (Nat.le_add_right ..), Nat.add_sub_cancel_left,
    List.getD_eq_getElem _ _ hj]

/-- A segment leaves an address it does not cover, whether it is loaded or left out. -/
theorem Memory.load_byte_of_not_covered {m : Memory} (hwf : m.wf = true) {g : Segment} {a : Nat}
    (ha : ¬ (g.addr ≤ a ∧ a < g.addr + g.bytes.length)) : (m.load g.addr g.bytes).byte a = m.byte a := by
  unfold Memory.load
  split
  · rw [Memory.put_byte hwf]
    split
    · exact List.getD_eq_default _ _ (by omega)
    · rfl
  · rfl

/-- Loading segments leaves an address that none of them covers. -/
theorem loadSegments_byte_of_not_covered (gs : List Segment) {m : Memory} (hwf : m.wf = true) {a : Nat}
    (ha : ∀ g ∈ gs, ¬ (g.addr ≤ a ∧ a < g.addr + g.bytes.length)) :
    (gs.foldl (fun m g => m.load g.addr g.bytes) m).byte a = m.byte a := by
  induction gs generalizing m with
  | nil => rfl
  | cons g gs ih =>
    obtain ⟨hg, hgs⟩ := List.forall_mem_cons.mp ha
    exact (ih (Memory.load_wf hwf ..) hgs).trans (Memory.load_byte_of_not_covered hwf hg)

/-- Loading segments inside the window, no two of which share an address, puts each one's bytes in place. -/
theorem loadSegments_byte (gs : List Segment) {m : Memory} (hwf : m.wf = true)
    (hin : ∀ g ∈ gs, g.inside m.base m.size = true) (hapart : gs.Pairwise (fun g h => g.apart h = true))
    {g : Segment} (hg : g ∈ gs) {j : Nat} (hj : j < g.bytes.length) :
    (gs.foldl (fun m g => m.load g.addr g.bytes) m).byte (g.addr + j) = g.bytes[j] := by
  induction gs generalizing m with
  | nil => cases hg
  | cons h gs ih =>
    obtain ⟨hhin, hgsin⟩ := List.forall_mem_cons.mp hin
    obtain ⟨hhapart, hgsapart⟩ := List.pairwise_cons.mp hapart
    have hwf' := Memory.load_wf hwf h.addr h.bytes
    obtain rfl | hg := List.mem_cons.mp hg
    · refine (loadSegments_byte_of_not_covered gs hwf' fun q hq => ?_).trans (Memory.load_byte_of_inside hwf hhin hj)
      have := segment_apart_iff.mp (hhapart q hq)
      omega
    · exact ih hwf' (by simpa using hgsin) hgsapart hg

/-- Settles O2: by induction on the segments, those loaded later leave a segment's bytes, since no two share an address. -/
theorem resetImageIsTheLoadedBytesAndZeroElsewhere : Obligations.ResetImageIsTheLoadedBytesAndZeroElsewhere := by
  intro p hp
  obtain ⟨-, -, hin, hapart⟩ := (params_valid_iff p).mp hp
  have hwf := Memory.zeroed_wf p.memBase p.memSize
  exact ⟨fun g hg j hj => loadSegments_byte p.image hwf hin hapart hg hj,
    fun a ha => loadSegments_byte_of_not_covered p.image hwf ha⟩

/-! ### Memory (20_memory.md) -/

/-- Settles O10: canonical cell lists that read the same are the same list. -/
theorem canonicalMemoriesAreEqualWhenTheirBytesAre : Obligations.CanonicalMemoriesAreEqualWhenTheirBytesAre := by
  intro m m' hwf hwf' hbase hsize hbytes
  have hcells : m.cells = m'.cells := cells_ext (m.wf_iff.mp hwf).1 (m'.wf_iff.mp hwf').1 hbytes
  cases m
  cases m'
  exact (Memory.mk.injEq ..).mpr ⟨hbase, hsize, hcells⟩

/-- What MemWrite stored, MemRead gives back (R74, R75). -/
theorem Memory.read_of_write {m m' : Memory} {a n : Nat} {v : BitVec (8 * n)} (hwf : m.wf = true)
    (hw : m.write a n v = some m') : m'.read a n = some v := by
  obtain ⟨-, hbase, hsize⟩ := Memory.write_wf hwf hw
  have hin : m'.inBounds a n = true := by
    rw [Memory.inBounds, hbase, hsize]
    exact (Memory.write_isSome m a n v).symm.trans (by rw [hw]; rfl)
  obtain ⟨u, hu, hbits⟩ := Memory.read_of_inBounds hin
  rw [hu]
  congr 1
  refine BitVec.eq_of_getLsbD_eq fun j hj => ?_
  rw [hbits j hj, Memory.write_byte hwf hw, if_pos (by omega), Nat.add_sub_cancel_left, BitVec.getLsbD_extractLsb',
    Nat.div_add_mod, decide_eq_true (Nat.mod_lt j (by decide)), Bool.true_and]

/-- A load after a store of its width and address widens the low bits of the stored data (R214). -/
theorem lsuLoad_of_lsuStore {k : XLen} {mem mem' : Memory} {addr v : Word k} {n : Nat} (hwf : mem.wf = true)
    (hs : lsuStore mem addr n v = some mem') (signed : Bool) : lsuLoad mem' addr n signed =
      some (if signed then sext k (v.setWidth (8 * n)) else zext k (v.setWidth (8 * n))) :=
  lsuLoad_of_read_some (Memory.read_of_write hwf hs) signed

/-- The low bits of a value, as a signed number: its own signed value, reduced. -/
theorem setWidth_toInt {n w : Nat} (v : BitVec w) (h : n ≤ w) : (v.setWidth n).toInt = Int.bmod v.toInt (2 ^ n) := by
  rw [← BitVec.signExtend_eq_setWidth_of_le v h, BitVec.toInt_signExtend_eq_toInt_bmod_of_le v h]

/-- A store inside the window succeeds. -/
theorem exists_lsuStore {k : XLen} {mem : Memory} {addr : Word k} {n : Nat} (hin : mem.inBounds addr.toNat n = true)
    (v : Word k) : ∃ mem', lsuStore mem addr n v = some mem' :=
  Option.isSome_iff_exists.mp ((lsuStore_isSome mem addr n v).trans hin)

/-- Settles O13: the load gives back the low bits the store wrote, and each extension keeps their value. -/
theorem storeThenLoadReturnsTheMaskedValue : Obligations.StoreThenLoadReturnsTheMaskedValue := by
  intro k m addr v n hwf _ hn hin
  obtain ⟨m', hs⟩ := exists_lsuStore hin v
  have hload := lsuLoad_of_lsuStore hwf hs
  refine ⟨m', hs, ⟨_, hload false, ?unsigned⟩, ⟨_, hload true, ?signed⟩⟩
  case unsigned => exact (zext_toNat _ hn).trans (BitVec.toNat_setWidth ..)
  case signed => exact (sext_toInt _ hn).trans (setWidth_toInt v hn)

/-- A store that succeeds commits the LSU's memory and the next pc. -/
theorem storeFrom_of_lsuStore {k : XLen} {m : Hart k} {mem' : Memory} {n : Nat} {rs1 rs2 : Reg} {imm : BitVec 12}
    (hs : lsuStore m.mem (m.storeAddr rs1 imm) n (m.reg rs2) = some mem') :
    storeFrom n rs1 rs2 imm ⟨k, m⟩ = retire ⟨k, m⟩ ((m.setMem mem').setPc m.nextPc) := by
  simp only [storeFrom, hs]

/-- Settles O32: the store's word is read back from its own address, which is the new pc, aligned as the old one. -/
theorem nextFetchSeesAStoreToIt : Obligations.NextFetchSeesAStoreToIt := by
  intro k m rs1 rs2 imm hwf hpc haddr hin
  rw [← haddr] at hin
  obtain ⟨mem', hs⟩ := exists_lsuStore hin (m.reg rs2)
  refine ⟨(m.setMem mem').setPc m.nextPc, ?exec, ?fetch⟩
  case exec => exact storeFrom_of_lsuStore hs
  case fetch =>
    refine fetch_of_read ?_ ?_
    · show (m.pc + 4#_).toNat % 4 = 0
      have h4 : (4#k.bits).toNat = 4 := by cases k <;> rfl
      rw [BitVec.toNat_add, Nat.mod_mod_of_dvd _ k.bits_dvd_four, h4]
      omega
    · show mem'.read (m.pc + 4#_).toNat 4 = _
      rw [← haddr]
      exact Memory.read_of_write hwf hs

/-! ### Addresses (40_execution_cycle.md 3) -/

/-- A sum with an extended immediate is the integer sum of the signed values, wrapped (R13, R166). -/
theorem add_immI_eq_ofInt {k : XLen} (a : Word k) (imm : BitVec 12) :
    a + immI k imm = BitVec.ofInt k.bits (a.toInt + imm.toInt) := by
  rw [BitVec.ofInt_add, BitVec.ofInt_toInt]
  rfl

/-- Settles O14: both addresses are one sum, and the JALR target differs from it at bit 0 alone. -/
theorem effectiveAddressesWrapModuloTheWidth : Obligations.EffectiveAddressesWrapModuloTheWidth := by
  intro k m rs1 imm
  have hsum := add_immI_eq_ofInt (m.reg rs1) imm
  refine ⟨hsum, hsum, fun j hj => ?_⟩
  rw [m.jalrTarget_getLsbD rs1 imm j hj, hsum]

end Sys2Proof.Machine
end

section
/-! The results of the instructions, with their frames. -/

namespace Sys2Proof.Machine

/-! ### Arithmetic, comparisons and shifts (43_op_imm.md, 44_op.md, 45_upper_immediate.md) -/

section
variable {k : XLen} {a b : Word k}

theorem boolWord_ltS : boolWord k (ltS a b) = if a.toInt < b.toInt then 1#_ else 0#_ := by
  simp only [boolWord, ltS, decide_eq_true_eq]

theorem boolWord_ltU : boolWord k (ltU a b) = if a.toNat < b.toNat then 1#_ else 0#_ := by
  simp only [boolWord, ltU, decide_eq_true_eq]

theorem alu_sll_toNat : (alu .sll a b).toNat = a.toNat * 2 ^ (b.toNat % k.bits) % 2 ^ k.bits := by
  rw [alu, BitVec.toNat_shiftLeft, Nat.shiftLeft_eq, shiftAmount_eq]

theorem alu_srl_toNat : (alu .srl a b).toNat = a.toNat / 2 ^ (b.toNat % k.bits) := by
  rw [alu, BitVec.toNat_ushiftRight, Nat.shiftRight_eq_div_pow, shiftAmount_eq]

theorem alu_sra_toInt : (alu .sra a b).toInt = a.toInt / 2 ^ (b.toNat % k.bits) := by
  rw [alu, BitVec.toInt_sshiftRight, Int.shiftRight_eq_div_pow, shiftAmount_eq]
  norm_cast

end

/-- Settles O40: each commits the ALU's sum or difference, which wraps. -/
theorem addAndSubtractWrap : Obligations.AddAndSubtractWrap := by
  intro k m rd rs1 rs2 imm
  refine ⟨⟨_, completes_of_setReg_setPc rfl, ?add⟩, ⟨_, completes_of_setReg_setPc rfl, ?sub⟩,
    ⟨_, completes_of_setReg_setPc rfl, ?addi⟩⟩
  case add => exact BitVec.toNat_add ..
  case sub => exact BitVec.toInt_sub ..
  case addi => exact (BitVec.toInt_add ..).trans (by rw [immI_toInt])

/-- Settles O41: each commits the ALU's bitwise result. -/
theorem bitwiseOperationsCombineTheirOperands : Obligations.BitwiseOperationsCombineTheirOperands := by
  intro k m rd rs1 rs2 imm
  refine ⟨?xor, ?or, ?and, ?xori, ?ori, ?andi⟩
  all_goals exact completes_of_setReg_setPc rfl

/-- Settles O42: each commits the comparison's 0/1 word, and an extended immediate keeps its signed value. -/
theorem setIfLessThanWritesOneOrZero : Obligations.SetIfLessThanWritesOneOrZero := by
  intro k m rd rs1 rs2 imm
  simp only [← boolWord_ltU, ← immI_toInt (k := k) imm, ← boolWord_ltS]
  refine ⟨?slt, ?sltu, ?slti, ?sltiu⟩
  all_goals exact completes_of_setReg_setPc rfl

/-- Settles O43: each commits the ALU's shift, whose amount is its operand modulo XLEN. -/
theorem registerShiftsUseTheAmountModuloTheWidth : Obligations.RegisterShiftsUseTheAmountModuloTheWidth :=
  fun _ _ _ _ _ => ⟨⟨_, completes_of_setReg_setPc rfl, alu_sll_toNat⟩, ⟨_, completes_of_setReg_setPc rfl, alu_srl_toNat⟩,
    ⟨_, completes_of_setReg_setPc rfl, alu_sra_toInt⟩⟩

/-- The amount of a shift has a place in the word exactly when it is below XLEN (R133). -/
theorem shamtFits_iff {k : XLen} (shamt : BitVec 6) : shamtFits k shamt = true ↔ shamt.toNat < k.bits := by
  have hbit : shamt[5] = decide (32 ≤ shamt.toNat) :=
    (BitVec.msb_eq_getLsbD_last shamt).symm.trans (BitVec.msb_eq_decide shamt)
  cases k with
  | rv32 => simp [shamtFits, hbit]
  | rv64 => simpa [shamtFits] using shamt.isLt

/-- A shift by an amount below XLEN completes with the ALU's result. -/
theorem completes_of_aluShamt {k : XLen} {i : Instr} {m : Hart k} {op : AluOp} {rd rs1 : Reg} {shamt : BitVec 6}
    (h : exec i ⟨k, m⟩ = aluShamt op rd rs1 shamt ⟨k, m⟩) (hs : shamt.toNat < k.bits) :
    Completes i m (some rd) (alu op (m.reg rs1) (zext k shamt)) (m.pc + 4#_) := by
  rw [aluShamt, if_pos ((shamtFits_iff shamt).mpr hs)] at h
  exact completes_of_setReg_setPc h

/-- Settles O44: an amount below XLEN has a place in the word and is its own remainder. -/
theorem immediateShiftsUseTheirAmount : Obligations.ImmediateShiftsUseTheirAmount := by
  intro k m rd rs1 shamt hs
  have hamount : (zext k shamt).toNat % k.bits = shamt.toNat := by
    rw [zext_toNat shamt (by cases k <;> decide), Nat.mod_eq_of_lt hs]
  refine ⟨⟨_, completes_of_aluShamt rfl hs, ?slli⟩, ⟨_, completes_of_aluShamt rfl hs, ?srli⟩,
    ⟨_, completes_of_aluShamt rfl hs, ?srai⟩⟩
  case slli => rw [alu_sll_toNat, hamount]
  case srli => rw [alu_srl_toNat, hamount]
  case srai => rw [alu_sra_toInt, hamount]

/-- Settles O49: LUI commits imm_U, whose signed value is 4096 times the field's. -/
theorem luiWritesThePositionedImmediate : Obligations.LuiWritesThePositionedImmediate :=
  fun _ _ _ imm => ⟨_, completes_of_setReg_setPc rfl, immU_toInt imm⟩

/-! ### Word operations (40_execution_cycle.md R170) -/

section
variable {k : XLen} (a b : Word k)

theorem low32_toInt : (low32 a).toInt = Int.bmod a.toInt (2 ^ 32) := setWidth_toInt a k.le_bits

theorem low32_toNat : (low32 a).toNat = a.toNat % 2 ^ 32 := BitVec.toNat_setWidth ..

theorem aluW_addw_toInt : (aluW .addw a b).toInt = Int.bmod (a.toInt + b.toInt) (2 ^ 32) := by
  rw [aluW, sext_toInt _ k.le_bits, BitVec.toInt_add, low32_toInt, low32_toInt]
  simp

theorem aluW_subw_toInt : (aluW .subw a b).toInt = Int.bmod (a.toInt - b.toInt) (2 ^ 32) := by
  rw [aluW, sext_toInt _ k.le_bits, BitVec.toInt_sub, low32_toInt, low32_toInt]
  simp

theorem aluW_sllw_toInt : (aluW .sllw a b).toInt = Int.bmod (a.toInt * 2 ^ (b.toNat % 32)) (2 ^ 32) := by
  have hpow (n : Nat) : ((low32 a).toNat <<< n : Nat) = ((low32 a).toNat : Int) * 2 ^ n := by
    rw [Nat.shiftLeft_eq]
    norm_cast
  rw [aluW, sext_toInt _ k.le_bits, BitVec.toInt_shiftLeft, hpow, ← Int.bmod_mul_bmod, ← BitVec.toInt_eq_toNat_bmod,
    low32_toInt, Int.bmod_mul_bmod, shiftAmountW_eq]

theorem aluW_srlw_toInt :
    (aluW .srlw a b).toInt = Int.bmod (a.toNat % 2 ^ 32 / 2 ^ (b.toNat % 32) : Nat) (2 ^ 32) := by
  rw [aluW, sext_toInt _ k.le_bits, BitVec.toInt_eq_toNat_bmod, BitVec.toNat_ushiftRight, low32_toNat,
    Nat.shiftRight_eq_div_pow, shiftAmountW_eq]

theorem aluW_sraw_toInt : (aluW .sraw a b).toInt = Int.bmod a.toInt (2 ^ 32) / 2 ^ (b.toNat % 32) := by
  rw [aluW, sext_toInt _ k.le_bits, BitVec.toInt_sshiftRight, low32_toInt, Int.shiftRight_eq_div_pow, shiftAmountW_eq]
  norm_cast

variable {a b} {a' b' : Word k}

/-- A word operation reads the low words of its operands and nothing else (R170). -/
theorem aluW_congr (op : AluOpW) (ha : low32 a = low32 a') (hb : low32 b = low32 b') : aluW op a b = aluW op a' b' := by
  have hamount : shiftAmountW b = shiftAmountW b' := by
    have hmod : b.toNat % 2 ^ 32 = b'.toNat % 2 ^ 32 := by rw [← low32_toNat, hb, low32_toNat]
    rw [shiftAmountW_eq, shiftAmountW_eq]
    omega
  simp only [aluW, ha, hb, hamount]

end

/-- Settles O45: each commits the ALU's word sum or difference. -/
theorem wordAddAndSubtractSignExtend : Obligations.WordAddAndSubtractSignExtend := by
  intro m rd rs1 rs2 imm
  refine ⟨⟨_, completes_of_setReg_setPc rfl, aluW_addw_toInt ..⟩, ⟨_, completes_of_setReg_setPc rfl, aluW_subw_toInt ..⟩,
    ⟨_, completes_of_setReg_setPc rfl, ?addiw⟩⟩
  exact (aluW_addw_toInt ..).trans (by rw [immI_toInt])

/-- Settles O46: each commits the ALU's word shift; a 5-bit amount is its own remainder modulo 32. -/
theorem wordShiftsActOnTheLowWord : Obligations.WordShiftsActOnTheLowWord := by
  intro m rd rs1 rs2 shamt
  have hamount : (zext .rv64 shamt).toNat % 32 = shamt.toNat := by
    rw [zext_toNat shamt (by decide), Nat.mod_eq_of_lt shamt.isLt]
  refine ⟨⟨_, completes_of_setReg_setPc rfl, aluW_sllw_toInt ..⟩, ⟨_, completes_of_setReg_setPc rfl, aluW_srlw_toInt ..⟩,
    ⟨_, completes_of_setReg_setPc rfl, aluW_sraw_toInt ..⟩, ⟨_, completes_of_setReg_setPc rfl, ?slliw⟩,
    ⟨_, completes_of_setReg_setPc rfl, ?srliw⟩, ⟨_, completes_of_setReg_setPc rfl, ?sraiw⟩⟩
  case slliw => exact (aluW_sllw_toInt ..).trans (by rw [hamount])
  case srliw => exact (aluW_srlw_toInt ..).trans (by rw [hamount])
  case sraiw => exact (aluW_sraw_toInt ..).trans (by rw [hamount])

/-- Two instructions that write the same value to `rd` leave the same value in it, x0 included. -/
theorem writeBack_reg_congr {k : XLen} {m m' t t' : Hart k} {rd : Reg} {v v' : Word k}
    (h : writeBack rd ⟨k, m⟩ v = .next ⟨k, t⟩) (h' : writeBack rd ⟨k, m'⟩ v' = .next ⟨k, t'⟩) (hv : v = v') :
    t.reg rd = t'.reg rd := by
  cases h
  cases h'
  by_cases h0 : rd = 0 <;> simp [Hart.setReg_reg, h0, hv]

/-- Settles O47: each commits a word operation of rs1 and either rs2 (the first five) or a constant. -/
theorem wordResultsIgnoreTheUpperHalves : Obligations.WordResultsIgnoreTheUpperHalves := by
  intro m m' t t' rd rs1 rs2 imm shamt i hlow hi h h'
  simp only [List.mem_cons, List.not_mem_nil, or_false] at hi
  obtain rfl | rfl | rfl | rfl | rfl | rfl | rfl | rfl | rfl := hi
  iterate 5 exact writeBack_reg_congr h h' (aluW_congr _ (hlow rs1) (hlow rs2))
  all_goals exact writeBack_reg_congr h h' (aluW_congr _ (hlow rs1) rfl)

/-! ### Control transfer and system instructions (46_control_transfer.md, 47_system_fence.md) -/

section
variable {k : XLen} {i : Instr} {m : Hart k}

/-- A branch completes at its target or at the next instruction, by its condition (R163). -/
theorem completes_of_branchIf {c : Cond} {rs1 rs2 : Reg} {imm : BitVec 13} {v : Word k}
    (h : exec i ⟨k, m⟩ = branchIf c rs1 rs2 imm ⟨k, m⟩) :
    Completes i m none v (if c.holds (m.reg rs1) (m.reg rs2) = true then m.pc + immB k imm else m.pc + 4#_) := by
  rw [branchIf_eq] at h
  exact completes_of_setPc h

end

/-- Settles O51: each branch goes by its condition, read off the comparator. -/
theorem branchesGoToTheirTargetOrOn : Obligations.BranchesGoToTheirTargetOrOn := by
  intro k m rs1 rs2 imm
  refine ⟨?beq, ?bne, ?blt, ?bge, ?bltu, ?bgeu⟩
  case beq => simpa only [Cond.eq_holds] using completes_of_branchIf (i := .beq rs1 rs2 imm) rfl
  case bne => simpa only [Cond.ne_holds, ite_not] using completes_of_branchIf (i := .bne rs1 rs2 imm) rfl
  case blt => simpa only [Cond.lt_holds] using completes_of_branchIf (i := .blt rs1 rs2 imm) rfl
  case bge => simpa only [Cond.ge_holds, ← not_lt, ite_not] using completes_of_branchIf (i := .bge rs1 rs2 imm) rfl
  case bltu => simpa only [Cond.ltu_holds] using completes_of_branchIf (i := .bltu rs1 rs2 imm) rfl
  case bgeu => simpa only [Cond.geu_holds, ← not_lt, ite_not] using completes_of_branchIf (i := .bgeu rs1 rs2 imm) rfl

/-- Clearing bit 0 rounds the address down to an even one. -/
theorem Hart.jalrTarget_toNat {k : XLen} (m : Hart k) (rs1 : Reg) (imm : BitVec 12) :
    (m.jalrTarget rs1 imm).toNat = (m.reg rs1 + immI k imm).toNat / 2 * 2 := by
  have hshift : m.jalrTarget rs1 imm = (m.reg rs1 + immI k imm) >>> 1 <<< 1 := by
    refine BitVec.eq_of_getLsbD_eq fun j hj => ?_
    rw [m.jalrTarget_getLsbD rs1 imm j hj, BitVec.getLsbD_shiftLeft, BitVec.getLsbD_ushiftRight]
    cases j with
    | zero => simp
    | succ j => simp [hj, Nat.add_comm 1 j]
  rw [hshift, BitVec.toNat_shiftLeft, BitVec.toNat_ushiftRight, Nat.shiftLeft_eq, Nat.shiftRight_eq_div_pow, pow_one]
  exact Nat.mod_eq_of_lt (lt_of_le_of_lt (Nat.div_mul_le_self ..) (BitVec.isLt _))

/-- Settles O52: the target is computed from the register before the link is written to it. -/
theorem jalrJumpsToTheOldRegisterValue : Obligations.JalrJumpsToTheOldRegisterValue := by
  intro k m rd imm h0
  refine ⟨_, rfl, ?link, m.jalrTarget_toNat rd imm⟩
  rw [Hart.setPc_reg, Hart.setReg_reg, if_pos ⟨rfl, h0⟩]
  rfl

/-- Settles O58: all three commit the next pc alone. -/
theorem ecallEbreakAndFenceOnlyAdvanceThePc : Obligations.EcallEbreakAndFenceOnlyAdvanceThePc := by
  intro k m fm pred succ rs1 rd
  refine ⟨?ecall, ?ebreak, ?fence⟩
  all_goals exact completes_of_setPc rfl

/-! ### Loads and stores (41_loads.md, 42_stores.md) -/

/-- An instruction that raises a fault halts with nothing else changed (R344). -/
theorem halts_of_raise {k : XLen} {i : Instr} {m : Hart k} {f : Fault} (h : exec i ⟨k, m⟩ = raise f ⟨k, m⟩) :
    Halts i m f := ⟨m.halt f, h, rfl, fun _ => rfl, rfl, rfl, rfl, fun _ => rfl⟩

section
variable {k : XLen} {i : Instr} {m : Hart k} {n : Nat} {rd rs1 rs2 : Reg} {imm : BitVec 12} {signed : Bool}

/-- A load outside the window halts with OutOfBounds (R342). -/
theorem halts_of_loadInto (hin : m.mem.inBounds (m.loadAddr rs1 imm).toNat n = false)
    (h : exec i ⟨k, m⟩ = loadInto n signed rd rs1 imm ⟨k, m⟩) : Halts i m .outOfBounds := by
  have hnone := lsuLoad_of_read_none (Memory.read_of_not_inBounds hin) signed
  refine halts_of_raise (h.trans ?_)
  simp only [loadInto, hnone]

/-- A store outside the window halts with OutOfBounds (R342). -/
theorem halts_of_storeFrom (hin : m.mem.inBounds (m.storeAddr rs1 imm).toNat n = false)
    (h : exec i ⟨k, m⟩ = storeFrom n rs1 rs2 imm ⟨k, m⟩) : Halts i m .outOfBounds := by
  have hnone : lsuStore m.mem (m.storeAddr rs1 imm) n (m.reg rs2) = none := Memory.write_of_not_inBounds hin
  refine halts_of_raise (h.trans ?_)
  simp only [storeFrom, hnone]

/-- A load whose bytes MemRead gives completes with them, widened. -/
theorem completes_of_loadInto {v : BitVec (8 * n)} (hr : m.mem.read (m.loadAddr rs1 imm).toNat n = some v)
    (h : exec i ⟨k, m⟩ = loadInto n signed rd rs1 imm ⟨k, m⟩) :
    Completes i m (some rd) (if signed then sext k v else zext k v) (m.pc + 4#_) := by
  have hsome := lsuLoad_of_read_some hr signed
  refine completes_of_setReg_setPc (h.trans ?_)
  simp only [loadInto, hsome]
  rfl

/-- A store inside the window leaves the low bytes of its data at its address (R75, R79). -/
theorem storesLow_of_storeFrom (hwf : m.mem.wf = true) (hin : m.mem.inBounds (m.storeAddr rs1 imm).toNat n = true)
    (h : exec i ⟨k, m⟩ = storeFrom n rs1 rs2 imm ⟨k, m⟩) :
    StoresLow i m n (m.storeAddr rs1 imm).toNat (m.reg rs2) := by
  obtain ⟨mem', hs⟩ := exists_lsuStore hin (m.reg rs2)
  obtain ⟨hbase, hsize⟩ := lsuStore_window hs
  refine ⟨_, h.trans (storeFrom_of_lsuStore hs), fun _ => rfl, rfl, rfl, hbase, hsize, fun j hj => ?stored, fun y hy => ?frame⟩
  case stored =>
    refine (lsuStore_byte hwf hs _).trans ?_
    rw [if_pos (by omega), Nat.add_sub_cancel_left]
  case frame => exact (lsuStore_byte hwf hs y).trans (if_neg (by omega))

end

/-- Settles O55: every load is the shared one at its own size. -/
theorem loadsOutsideTheWindowHalt : Obligations.LoadsOutsideTheWindowHalt := by
  rintro k m rd rs1 imm _ rfl
  refine ⟨fun h => ⟨?lb, ?lbu⟩, fun h => ⟨?lh, ?lhu⟩, fun h => ?lw, ?ld⟩
  case ld =>
    rintro rfl h
    exact halts_of_loadInto h rfl
  all_goals exact halts_of_loadInto h rfl

/-- Settles O57: every store is the shared one at its own size. -/
theorem storesOutsideTheWindowHaltAndWriteNothing : Obligations.StoresOutsideTheWindowHaltAndWriteNothing := by
  rintro k m rs1 rs2 imm _ rfl
  refine ⟨fun h => ?sb, fun h => ?sh, fun h => ?sw, ?sd⟩
  case sd =>
    rintro rfl h
    exact halts_of_storeFrom h rfl
  all_goals exact halts_of_storeFrom h rfl

/-- Settles O56: every store is the shared one at its own size. -/
theorem storesInsideTheWindowWriteTheLowBytes : Obligations.StoresInsideTheWindowWriteTheLowBytes := by
  rintro k m rs1 rs2 imm _ hwf rfl
  refine ⟨fun h => ?sb, fun h => ?sh, fun h => ?sw, ?sd⟩
  case sd =>
    rintro rfl h
    exact storesLow_of_storeFrom hwf h rfl
  all_goals exact storesLow_of_storeFrom hwf h rfl

/-! ### The value a load reads, byte by byte (R74, R76) -/

/-- A number read from bytes is the number of those above the lowest, then the lowest. -/
theorem ofNat_leValue_cons {n : Nat} {b : Byte} {bs : List Byte} {v : BitVec n} (h : BitVec.ofNat n (leValue bs) = v) :
    BitVec.ofNat (n + 8) (leValue (b :: bs)) = v ++ b := by
  subst h
  apply BitVec.eq_of_toNat_eq
  rw [BitVec.toNat_append, ← Nat.shiftLeft_add_eq_or_of_lt b.isLt, BitVec.toNat_ofNat, BitVec.toNat_ofNat, leValue,
    Nat.shiftLeft_eq, Nat.add_comm n 8, Nat.pow_add, Nat.mod_mul]
  have hb := b.isLt
  have hlow : (b.toNat + 256 * leValue bs) % 2 ^ 8 = b.toNat := by omega
  have hhigh : (b.toNat + 256 * leValue bs) / 2 ^ 8 = leValue bs := by omega
  rw [hlow, hhigh]
  ring

theorem ofNat_leValue_singleton (b : Byte) : BitVec.ofNat 8 (leValue [b]) = b := by simp [leValue]

section
variable {m : Memory} {a : Nat}

theorem Memory.read_one (h : m.inBounds a 1 = true) : m.read a 1 = some (m.byte a) :=
  (if_pos h).trans (congrArg some (ofNat_leValue_singleton _))

theorem Memory.read_two (h : m.inBounds a 2 = true) : m.read a 2 = some (m.byte (a + 1) ++ m.byte a) :=
  (if_pos h).trans (congrArg some (ofNat_leValue_cons (ofNat_leValue_singleton _)))

theorem Memory.read_four (h : m.inBounds a 4 = true) :
    m.read a 4 = some (m.byte (a + 3) ++ m.byte (a + 2) ++ m.byte (a + 1) ++ m.byte a) :=
  (if_pos h).trans (congrArg some (ofNat_leValue_cons (ofNat_leValue_cons (ofNat_leValue_cons (ofNat_leValue_singleton _)))))

theorem Memory.read_eight (h : m.inBounds a 8 = true) :
    m.read a 8 = some (m.byte (a + 7) ++ m.byte (a + 6) ++ m.byte (a + 5) ++ m.byte (a + 4)
      ++ m.byte (a + 3) ++ m.byte (a + 2) ++ m.byte (a + 1) ++ m.byte a) :=
  (if_pos h).trans (congrArg some (ofNat_leValue_cons (ofNat_leValue_cons (ofNat_leValue_cons (ofNat_leValue_cons
    (ofNat_leValue_cons (ofNat_leValue_cons (ofNat_leValue_cons (ofNat_leValue_singleton _)))))))))

end

/-- Settles O53: each load widens the number its bytes make up. -/
theorem loadsInsideTheWindowWriteTheWidenedBytes : Obligations.LoadsInsideTheWindowWriteTheWidenedBytes := by
  rintro k m rd rs1 imm _ rfl
  refine ⟨fun h => ⟨?lb, ?lbu⟩, fun h => ⟨?lh, ?lhu⟩, fun h => ?lw⟩
  case lb => exact completes_of_loadInto (signed := true) (Memory.read_one h) rfl
  case lbu => exact completes_of_loadInto (signed := false) (Memory.read_one h) rfl
  case lh => exact completes_of_loadInto (signed := true) (Memory.read_two h) rfl
  case lhu => exact completes_of_loadInto (signed := false) (Memory.read_two h) rfl
  case lw => exact completes_of_loadInto (signed := true) (Memory.read_four h) rfl

theorem sext_rv64 (v : BitVec 64) : sext .rv64 v = v := BitVec.signExtend_eq v

/-- Settles O54: eight bytes fill the register, so widening leaves them. -/
theorem loadDoublewordWritesEightBytes : Obligations.LoadDoublewordWritesEightBytes := by
  rintro m rd rs1 imm _ rfl h
  have hld := completes_of_loadInto (i := .ld rd rs1 imm) (signed := true) (Memory.read_eight h) rfl
  rwa [if_pos rfl, sext_rv64] at hld

/-! ### RV64-only forms at XLEN 32 (log 5) -/

/-- No word decodes to an instruction that has no encoding at its width. -/
theorem ne_legal_of_not_wellFormed {k : XLen} {i : Instr} (h : i.wellFormed k = false) (w : BitVec 32) :
    decode k w ≠ .legal i := by
  intro hd
  have hwf := (encodeOfDecodedWordIsTheWord k w i hd).1
  rw [h] at hwf
  cases hwf

/-- A shift whose amount has no place in the word is Illegal (R133). -/
theorem halts_of_aluShamt {k : XLen} {i : Instr} {m : Hart k} {op : AluOp} {rd rs1 : Reg} {shamt : BitVec 6}
    (hs : shamtFits k shamt = false) (h : exec i ⟨k, m⟩ = aluShamt op rd rs1 shamt ⟨k, m⟩) :
    Halts i m .illegalInstruction := by
  refine halts_of_raise (h.trans ?_)
  rw [aluShamt, hs]
  rfl

/-- Settles O48: none of them is well-formed at XLEN 32, as a decoded instruction is (O22), and each meaning tests for it. -/
theorem rv64OnlyInstructionsAreIllegalAtXlen32 : Obligations.Rv64OnlyInstructionsAreIllegalAtXlen32 := by
  intro m rd rs1 rs2 imm sh5 sh6 i hi
  simp only [List.mem_cons, List.not_mem_nil, or_false] at hi
  obtain hi | ⟨h32, hi⟩ := hi
  · obtain rfl | rfl | rfl | rfl | rfl | rfl | rfl | rfl | rfl | rfl | rfl := hi
    all_goals exact ⟨halts_of_raise rfl, ne_legal_of_not_wellFormed rfl⟩
  · have hfits : shamtFits .rv32 sh6 = false := by
      rw [← Bool.not_eq_true, shamtFits_iff]
      exact h32.not_gt
    obtain rfl | rfl | rfl := hi
    all_goals exact ⟨halts_of_aluShamt hfits rfl, ne_legal_of_not_wellFormed hfits⟩

end Sys2Proof.Machine
end
